-- ==== Sys2Proof/Word.lean ====
section
/-! DEFINITION. The word types of the core (00_scope.md R8, R9): 32-bit words, bytes and the 64-bit byte counter. -/
namespace Sys2Proof

/-- `bits32` (R9): an unsigned 32-bit word. -/
abbrev Word := BitVec 32

/-- One byte of a message, a block or a digest. -/
abbrev Byte := BitVec 8

/-- `bits64` (R9): the byte counter LEN and the padding unit's length field. -/
abbrev Word64 := BitVec 64

/-- The 8 words of the state accumulator H (10_state.md R31). -/
abbrev HashState := Vector Word 8

/-- One 64-byte block packed into 16 words (30_encoding.md R104). -/
abbrev Block := Vector Word 16

end Sys2Proof
end

