-- ==== Sys2Proof/Config.lean ====
section
/-! DEFINITION. What one chip or one platform fixes (00_scope.md R8) and the free values of the model.
None of these constants has a value a proof can see: a claim about the model holds for all of them. -/
namespace Sys2Proof

/-- BASE_ADDR (R8, OPEN): the window's base address on the host bus. -/
opaque Config.baseAddr : Nat

/-- BUS (R8): what the rules say a host bus protocol may or may not have. -/
structure Config.BusKind where
  /-- The bus carries the core's ERROR response to the host; 60_exceptions.md R283 speaks of "a BUS without error responses". -/
  errorResponses : Bool
  /-- The bus neither reorders nor posts what a host issues; 20_memory.md R81: "if BUS can reorder or post writes". -/
  keepsOrder     : Bool
  deriving DecidableEq, Repr, Inhabited

/-- BUS (R8, OPEN): the host bus protocol carrying 32-bit register transactions (log 13). -/
opaque Config.bus : Config.BusKind

/-- T_BLOCK (R8, OPEN) less one: "cycles one block's compression occupies the engine, at least 1". -/
opaque Config.tBlockLessOne : Nat

/-- T_BLOCK (R8): at least 1, otherwise unconstrained. -/
def Config.tBlock : Nat := Config.tBlockLessOne + 1

/-- RESET_KIND (R8, 70_reset_and_hazards.md R321): polarity, synchronisation and minimum hold time of the reset input. -/
structure Config.ResetKind where
  activeHigh  : Bool
  synchronous : Bool
  minHold     : Nat
  deriving DecidableEq, Repr, Inhabited

/-- RESET_KIND (R8, OPEN). -/
opaque Config.resetKind : Config.ResetKind

/-- Free value (DESIGN CHOICE, log 1): how many of the host's inputs are still performed between the acceptance
of the `n`-th job that no recorded schedule covers and its completion (45_commands.md R251, 93 I14: "any finite number"). -/
opaque Config.engineWait : Nat → Nat

end Sys2Proof
end

