-- ==== Sys2Proof/Machine/Bus.lean ====
section
/-! DEFINITION. The register window as the host sees it: registers, transactions, responses, the lines of a host program
and the inputs of the machine (20_memory.md R70, R72; 30_encoding.md R110). -/
namespace Sys2Proof.Machine

/-- A window offset: 0x00 to 0x7F (20_memory.md R70). -/
abbrev Offset := BitVec 7

/-- The registers of the window, one for each aligned offset (R72). -/
inductive Reg where
  | cmd
  | status
  | lenLo
  | lenHi
  /-- Offsets 0x10, 0x14, 0x18, 0x1C (10_state.md R47). -/
  | reserved (i : Fin 4)
  | digest (k : Fin 8)
  | msg (j : Fin 16)
  deriving DecidableEq, Repr

/-- The offset of a register (R72). -/
def Reg.off : Reg → Offset
  | .cmd        => 0x00
  | .status     => 0x04
  | .lenLo      => 0x08
  | .lenHi      => 0x0C
  | .reserved i => BitVec.ofNat 7 (0x10 + 4 * i.val)
  | .digest k   => BitVec.ofNat 7 (0x20 + 4 * k.val)
  | .msg j      => BitVec.ofNat 7 (0x40 + 4 * j.val)

/-- The register that holds an offset (R72): `off div 4` selects it. -/
def Reg.ofOffset (off : Offset) : Reg :=
  let i := off.toNat / 4
  if i = 0 then .cmd
  else if i = 1 then .status
  else if i = 2 then .lenLo
  else if i = 3 then .lenHi
  else if i < 8 then .reserved (Fin.ofNat 4 (i - 4))
  else if i < 16 then .digest (Fin.ofNat 8 (i - 8))
  else .msg (Fin.ofNat 16 (i - 16))

/-- A host transaction at a window offset, of `n` bytes (20_memory.md R70). The data of a write is held as 32 bits:
a write of another size is illegal and its data is never read (R71; log 7). -/
inductive Access where
  | read  (off : Offset) (n : Nat)
  | write (off : Offset) (n : Nat) (v : Word)
  deriving DecidableEq, Repr

/-- The offset a transaction addresses. -/
def Access.off : Access → Offset
  | .read off _    => off
  | .write off _ _ => off

/-- The size of a transaction in bytes. -/
def Access.size : Access → Nat
  | .read _ n    => n
  | .write _ n _ => n

/-- The response of a transaction (R70): `OKAY(v)` to a read, `OKAY` to a write, or `ERROR`. -/
inductive Response where
  | data (v : Word)
  | okay
  | error
  deriving DecidableEq, Repr

/-- What BUS carries of a response to the host (00_scope.md R8): every OKAY, and an ERROR where BUS has error responses. On a BUS
without them (60_exceptions.md R283) what the host sees in its place is not stated, so nothing is (log 13). -/
def Response.onBus : Response → Option Response
  | .data v => some (.data v)
  | .okay   => some .okay
  | .error  => if Config.bus.errorResponses then some .error else none

/-- One line of a host program (30_encoding.md R110). -/
inductive Line where
  | wr (r : Reg) (imm : Word)
  | rd (r : Reg)
  | poll (r : Reg) (mask value : Word)
  | expect (r : Reg) (imm : Word)
  | rdx (off : Offset) (n : Nat)
  | wrx (off : Offset) (n : Nat) (imm : Word)
  deriving DecidableEq, Repr

/-- The transaction a line performs (R110; for POLL and EXPECT, one read). -/
def Line.access : Line → Access
  | .wr r imm      => .write r.off 4 imm
  | .rd r          => .read r.off 4
  | .poll r _ _    => .read r.off 4
  | .expect r _    => .read r.off 4
  | .rdx off n     => .read off n
  | .wrx off n imm => .write off n imm

/-- What arrives at the core from outside: a line of the host's program, or the platform's reset event
(00_scope.md R7, 70_reset_and_hazards.md R320), which then stays held for `hold` steps (R321; log 6). Lines and
resets are one list in the order they are performed (DESIGN CHOICE, log 21). -/
inductive Input where
  | line (l : Line)
  | reset (hold : Nat)
  deriving DecidableEq, Repr

/-- A bus request at a bus address, before the platform's address decode (R70). -/
inductive BusRequest where
  | read  (addr n : Nat)
  | write (addr n : Nat) (v : Word)
  deriving DecidableEq, Repr

/-- The bus address of a request. -/
def BusRequest.addr : BusRequest → Nat
  | .read addr _    => addr
  | .write addr _ _ => addr

/-- The requests `issued` by a host may reach the core as `arrived` (20_memory.md R81): all of them, in the order issued unless BUS
reorders or posts, and then in any order (log 13). -/
def BusDelivers (issued arrived : List BusRequest) : Prop :=
  arrived.Perm issued ∧ (Config.bus.keepsOrder = true → arrived = issued)

/-- `off = addr - BASE_ADDR` (R70): the window offset of a bus address, and none outside
BASE_ADDR to BASE_ADDR + 0x7F, where a transaction "is not addressed to the core". -/
def windowOffset (addr : Nat) : Option Offset :=
  if Config.baseAddr ≤ addr ∧ addr ≤ Config.baseAddr + 0x7F then
    some (BitVec.ofNat 7 (addr - Config.baseAddr))
  else none

/-- The transaction the core receives for a bus request, if it is addressed to the core (R70). -/
def BusRequest.line : BusRequest → Option Line
  | .read addr n    => (windowOffset addr).map (fun off => .rdx off n)
  | .write addr n v => (windowOffset addr).map (fun off => .wrx off n v)

end Sys2Proof.Machine
end

