-- ==== Sys2Proof/Syntax.lean ====
section
/-! DEFINITION. The commands of the core: one constructor per row of opcode_table.json (30_encoding.md R101). -/
namespace Sys2Proof

/-- A command (45_commands.md section 1). -/
inductive Instr where
  /-- INIT (R240): start a new message. -/
  | init
  /-- UPDATE (R241): absorb one full 64-byte block. -/
  | update
  /-- FINAL n (R242): absorb the last `nbytes` bytes, pad, and produce the digest.
  NBYTES is an unsigned byte count, neither scaled nor shifted (30_encoding.md R102). -/
  | final (nbytes : Nat)
  /-- CLRERR (R243): clear the sticky error bits. -/
  | clrerr
  deriving DecidableEq, Repr

end Sys2Proof
end

