-- ==== Sys2Proof/WellFormed.lean ====
section
/-! DEFINITION. Well-formedness of commands (30_encoding.md R102) and of host transactions (20_memory.md R70). -/
namespace Sys2Proof

/-- The check of a command: NBYTES is "an unsigned 6-bit value ..., range 0 to 63" (30_encoding.md R102). -/
def Instr.wellFormed : Instr → Bool
  | .init     => true
  | .update   => true
  | .final n  => decide (n ≤ 63)
  | .clrerr   => true

/-- A command that some legal word encodes. -/
abbrev Instr.WellFormed (i : Instr) : Prop := i.wellFormed = true

/-- The check of a transaction: "n in {1, 2, 4, ...} bytes" (20_memory.md R70), a power of two.
The window bound 0x00 to 0x7F is the type `Offset`. -/
def Machine.Access.wellFormed (a : Machine.Access) : Bool :=
  a.size == 2 ^ Nat.log2 a.size

/-- A transaction of a size the bus has. -/
abbrev Machine.Access.WellFormed (a : Machine.Access) : Prop := a.wellFormed = true

end Sys2Proof
end

