-- ==== Sys2Proof/Decode.lean ====
section
/-! DEFINITION. The command decoder and encoder (30_encoding.md section 1): format C, legality, the opcode map. -/
namespace Sys2Proof

/-- OP, bits 3:0 (R100). -/
def opField (w : Word) : BitVec 4 := w.extractLsb' 0 4

/-- NBYTES, bits 9:4 (R100). -/
def nbytesField (w : Word) : BitVec 6 := w.extractLsb' 4 6

/-- RSV, bits 31:10 (R100), must be 0. -/
def rsvField (w : Word) : BitVec 22 := w.extractLsb' 10 22

/-- `legal(w)` (R103). -/
def legal (w : Word) : Bool :=
  rsvField w == 0 &&
    (((opField w == 1 || opField w == 2 || opField w == 4) && nbytesField w == 0) || opField w == 3)

/-- Why a word is illegal (R108). Every reason raises ERR_CMD alike: the name is the decoder's own and
the core records none of it (60_exceptions.md, section 1; log 15). -/
inductive IllegalWord where
  /-- "A non-zero RSV field is illegal for every OP." -/
  | reservedBits
  /-- "OP values 0x0 and 0x5 to 0xF are illegal." -/
  | opcode
  /-- "A non-zero NBYTES with OP other than 0x3 is illegal." -/
  | nbytes
  deriving DecidableEq, Repr

/-- An operation without an operand: its NBYTES field must be 0 (R102). -/
def withoutOperand (w : Word) (i : Instr) : Except IllegalWord Instr :=
  if nbytesField w = 0 then .ok i else .error .nbytes

/-- The command decoder (R101 to R103, R108), total on all words. -/
def decode (w : Word) : Except IllegalWord Instr :=
  if rsvField w = 0 then
    match (opField w).toNat with
    | 1 => withoutOperand w .init
    | 2 => withoutOperand w .update
    | 3 => .ok (.final (nbytesField w).toNat)
    | 4 => withoutOperand w .clrerr
    | _ => .error .opcode
  else .error .reservedBits

/-- A format C word from its three fields (R100). -/
def formatC (rsv : BitVec 22) (nbytes : BitVec 6) (op : BitVec 4) : Word :=
  (rsv ++ nbytes ++ op).cast (by decide)

/-- The word of a command (R101, R102). -/
def encode : Instr → Word
  | .init    => formatC 0 0 1
  | .update  => formatC 0 0 2
  | .final n => formatC 0 (BitVec.ofNat 6 n) 3
  | .clrerr  => formatC 0 0 4

/-- The command among the first `nbits` bits of `w`, every higher bit 0: "Every command is exactly one
32-bit word" (R109), so a number that does not fit one word is no command. -/
def decodeTableWord (nbits w : Nat) : Option Instr :=
  let v := w % 2 ^ nbits
  if v < 2 ^ 32 then
    match decode (BitVec.ofNat 32 v) with
    | .ok i    => some i
    | .error _ => none
  else none

end Sys2Proof
end

