-- ==== Sys2Proof/Machine/Tables.lean ====
section
/-! DEFINITION. The constant tables K and IV (10_state.md R40, R41), which the spec supplies from general knowledge (93 G1, G2; log 10). -/
namespace Sys2Proof.Machine

/-- One row of the table of R40: row `i` holds K[i], K[i + 16], K[i + 32] and K[i + 48]. -/
structure KRow where
  k0  : Word
  k16 : Word
  k32 : Word
  k48 : Word
  deriving DecidableEq, Repr

/-- Rows 0 to 3 of the table of R40. -/
def kRows0 : List KRow :=
  [⟨0x428a2f98, 0xe49b69c1, 0x27b70a85, 0x19a4c116⟩,
   ⟨0x71374491, 0xefbe4786, 0x2e1b2138, 0x1e376c08⟩,
   ⟨0xb5c0fbcf, 0x0fc19dc6, 0x4d2c6dfc, 0x2748774c⟩,
   ⟨0xe9b5dba5, 0x240ca1cc, 0x53380d13, 0x34b0bcb5⟩]

/-- Rows 4 to 7 of the table of R40. -/
def kRows1 : List KRow :=
  [⟨0x3956c25b, 0x2de92c6f, 0x650a7354, 0x391c0cb3⟩,
   ⟨0x59f111f1, 0x4a7484aa, 0x766a0abb, 0x4ed8aa4a⟩,
   ⟨0x923f82a4, 0x5cb0a9dc, 0x81c2c92e, 0x5b9cca4f⟩,
   ⟨0xab1c5ed5, 0x76f988da, 0x92722c85, 0x682e6ff3⟩]

/-- Rows 8 to 11 of the table of R40. -/
def kRows2 : List KRow :=
  [⟨0xd807aa98, 0x983e5152, 0xa2bfe8a1, 0x748f82ee⟩,
   ⟨0x12835b01, 0xa831c66d, 0xa81a664b, 0x78a5636f⟩,
   ⟨0x243185be, 0xb00327c8, 0xc24b8b70, 0x84c87814⟩,
   ⟨0x550c7dc3, 0xbf597fc7, 0xc76c51a3, 0x8cc70208⟩]

/-- Rows 12 to 15 of the table of R40. -/
def kRows3 : List KRow :=
  [⟨0x72be5d74, 0xc6e00bf3, 0xd192e819, 0x90befffa⟩,
   ⟨0x80deb1fe, 0xd5a79147, 0xd6990624, 0xa4506ceb⟩,
   ⟨0x9bdc06a7, 0x06ca6351, 0xf40e3585, 0xbef9a3f7⟩,
   ⟨0xc19bf174, 0x14292967, 0x106aa070, 0xc67178f2⟩]

/-- The sixteen rows of the table of R40. -/
def kRows : List KRow := kRows0 ++ kRows1 ++ kRows2 ++ kRows3

/-- The round constants K[0..63] (R40): the table's columns, one after the other. -/
def kTable : List Word :=
  kRows.map KRow.k0 ++ kRows.map KRow.k16 ++ kRows.map KRow.k32 ++ kRows.map KRow.k48

/-- K[i] (R40), for `i` in 0..63. -/
def K (i : Nat) : Word := kTable.getD i 0

/-- IV[0..7], the fixed initial State (R41). -/
def IV : HashState :=
  #v[0x6a09e667, 0xbb67ae85, 0x3c6ef372, 0xa54ff53a, 0x510e527f, 0x9b05688c, 0x1f83d9ab, 0x5be0cd19]

end Sys2Proof.Machine
end

