-- ==== Sys2Proof/Machine/State.lean ====
section
/-! DEFINITION. The state of the machine: the architectural record (10_state.md R30), the hidden sequencing state (R37),
and the agents around the core (00_scope.md R7), all plain data; the fault and refusal types; the state after reset (R51). -/
namespace Sys2Proof.Machine

/-- The kind of an in-flight command (R30). -/
inductive JobKind where
  | update
  | final
  deriving DecidableEq, Repr

/-- JOB (R30, R36): the blocks to compress, a snapshot already padded, and LEN after completion. -/
structure Job where
  kind   : JobKind
  blocks : List Block
  newlen : Word64
  deriving DecidableEq, Repr

/-- The architectural state of one core (R30). -/
structure CoreState where
  /-- The state accumulator (R31). -/
  H         : HashState
  /-- The message block registers (R34). -/
  MSG       : Block
  /-- Bytes absorbed, modulo 2^64 (R35). -/
  LEN       : Word64
  /-- Digest valid (R38). -/
  DVALID    : Bool
  /-- FINAL accepted, no INIT since (R38). -/
  FINALIZED : Bool
  /-- Write after finalize (R39). -/
  ERR_WAF   : Bool
  /-- Illegal command (R39). -/
  ERR_CMD   : Bool
  /-- Command while busy (R39). -/
  ERR_BUSY  : Bool
  /-- Illegal access size or alignment (R39). -/
  ERR_ACC   : Bool
  /-- The in-flight command (R36). -/
  JOB       : Option Job
  deriving DecidableEq, Repr

/-- The working variables (R32). -/
structure Vars where
  a : Word
  b : Word
  c : Word
  d : Word
  e : Word
  f : Word
  g : Word
  h : Word
  deriving DecidableEq, Repr

/-- The hidden sequencing state of a cycle-level engine (R37), which no register shows (R50). -/
structure Pipeline where
  /-- The index of the next round; 64 means accumulate next. -/
  ROUND : BitVec 7
  /-- The index of the block of JOB being compressed. -/
  BLK   : BitVec 1
  vars  : Vars
  /-- The 16-word window of the schedule (R33, 42_schedule.md R174). -/
  W     : Block
  deriving DecidableEq, Repr

/-- The host and the platform, seen from the core (log 4): what is still to come and what has happened on the bus. -/
structure HostSide where
  /-- Lines and reset events still to come, oldest first. -/
  inputs       : List Input
  /-- Every transaction performed with its response (20_memory.md R70), newest first. -/
  trace        : List (Access × Response)
  /-- An EXPECT line has read another value: "the program fails" (30_encoding.md R110; log 12). -/
  expectFailed : Bool
  /-- A command that set BUSY has been written and no later STATUS read has returned BUSY = 0
  (70_reset_and_hazards.md R342). -/
  awaiting     : Bool
  deriving DecidableEq, Repr

/-- When the engine takes its step relative to the host's inputs (45_commands.md R251, 93 I14; log 1). -/
structure EngineTurns where
  /-- How many more inputs are performed before the engine completes the job in flight. -/
  wait  : Nat
  /-- The waits of the next jobs where a run's schedule is written down; the free value serves when it is empty. -/
  waits : List Nat
  /-- How many free values have been drawn. -/
  draws : Nat
  deriving DecidableEq, Repr

/-- The state of the machine. -/
structure State where
  core      : CoreState
  pipe      : Pipeline
  host      : HostSide
  /-- For how many more steps reset is still held (70_reset_and_hazards.md R321; log 6). -/
  resetHold : Nat
  turns     : EngineTurns
  deriving DecidableEq, Repr

/-- The reasons the machine can stop with a fault: none. "The core therefore has no traps" (60_exceptions.md), every
error is a sticky bit (R285) and the datapath raises nothing (R289). Nobody raises a fault; safe (log 16). -/
inductive Fault where
  deriving DecidableEq, Repr

/-- The reasons the machine can refuse to step. -/
inductive Refusal where
  /-- Raised by an arm of `exec` for an instruction without a meaning; no arm does. Safe. -/
  | notModelled (mnemonic : String)
  deriving DecidableEq, Repr

/-- The architectural record after reset (R51). -/
def CoreState.reset : CoreState where
  H         := IV
  MSG       := Vector.replicate 16 0
  LEN       := 0
  DVALID    := false
  FINALIZED := false
  ERR_WAF   := false
  ERR_CMD   := false
  ERR_BUSY  := false
  ERR_ACC   := false
  JOB       := none

/-- The hidden sequencing state after reset: the spec calls it unspecified and unobservable (R51, R50).
DESIGN CHOICE, unsafe: zero (log 3). -/
def Pipeline.reset : Pipeline where
  ROUND := 0
  BLK   := 0
  vars  := ⟨0, 0, 0, 0, 0, 0, 0, 0⟩
  W     := Vector.replicate 16 0

/-- A host that has done nothing yet. DESIGN CHOICE (log 4). -/
def HostSide.reset : HostSide where
  inputs       := []
  trace        := []
  expectFailed := false
  awaiting     := false

/-- No job has been accepted and no schedule is written down. DESIGN CHOICE (log 4). -/
def EngineTurns.reset : EngineTurns where
  wait  := 0
  waits := []
  draws := 0

/-- The machine right after reset (R51, 70_reset_and_hazards.md R320, R323). -/
def State.reset : State where
  core      := CoreState.reset
  pipe      := Pipeline.reset
  host      := HostSide.reset
  resetHold := 0
  turns     := EngineTurns.reset

end Sys2Proof.Machine
end

