-- ==== Sys2Proof/Machine/Ops.lean ====
section
/-! DEFINITION. The named operations: 32-bit word operations (40_word_ops.md), byte order (00_scope.md R12), raising and
clearing the sticky errors (60_exceptions.md R285, R286), taking a job, reset, and the bus trace. -/
namespace Sys2Proof.Machine

/-! ## Word operations -/

/-- `add32(x1, ..., xn)` (R130): the sum over the naturals, reduced modulo 2^32. -/
def add32 (xs : List Word) : Word := BitVec.ofNat 32 (xs.map BitVec.toNat).sum

/-- `rotr(x, n)` (R131). For an amount of 32 or more, which never occurs, the amount is taken modulo 32, as
R131 says a model should (log 11). -/
def rotr (x : Word) (n : Nat) : Word := x >>> (n % 32) ||| x <<< (32 - n % 32)

/-- `shr(x, n)` (R132): a logical right shift. -/
def shr (x : Word) (n : Nat) : Word := x >>> n

/-! ## Words and bytes -/

/-- A hash state from its 8 words. -/
def hashState (f : Fin 8 → Word) : HashState := #v[f 0, f 1, f 2, f 3, f 4, f 5, f 6, f 7]

/-- A block from its 16 words. -/
def blockOf (f : Fin 16 → Word) : Block :=
  #v[f 0, f 1, f 2, f 3, f 4, f 5, f 6, f 7, f 8, f 9, f 10, f 11, f 12, f 13, f 14, f 15]

/-- `be32(b0, b1, b2, b3)` (R12): b0 in bits 31:24. -/
def be32 (b0 b1 b2 b3 : Byte) : Word := b0 ++ b1 ++ b2 ++ b3

/-- `bytes_be32(x)` (R12): most significant byte first. -/
def bytesBe32 (x : Word) : List Byte :=
  [x.extractLsb' 24 8, x.extractLsb' 16 8, x.extractLsb' 8 8, x.extractLsb' 0 8]

/-- `be64(v)` (R12): the 8 bytes of a 64-bit value, most significant byte first. -/
def be64 (v : Word64) : List Byte :=
  [v.extractLsb' 56 8, v.extractLsb' 48 8, v.extractLsb' 40 8, v.extractLsb' 32 8,
   v.extractLsb' 24 8, v.extractLsb' 16 8, v.extractLsb' 8 8, v.extractLsb' 0 8]

/-! ## Errors: entry and return -/

/-- The four errors (60_exceptions.md R280 to R283). -/
inductive Err where
  | waf
  | cmd
  | busy
  | acc
  deriving DecidableEq, Repr

/-- The cause code of an error: its STATUS bit number (60_exceptions.md, section 1). -/
def Err.code : Err → Nat
  | .waf  => 3
  | .cmd  => 4
  | .busy => 5
  | .acc  => 6

/-- `raise <Error>` on the record (R285): set the error's sticky bit and nothing else. -/
def CoreState.raise (e : Err) (c : CoreState) : CoreState :=
  match e with
  | .waf  => { c with ERR_WAF := true }
  | .cmd  => { c with ERR_CMD := true }
  | .busy => { c with ERR_BUSY := true }
  | .acc  => { c with ERR_ACC := true }

/-- Clear the four sticky bits (R286): the only return from an error the core has. -/
def CoreState.clearErrors (c : CoreState) : CoreState :=
  { c with ERR_WAF := false, ERR_CMD := false, ERR_BUSY := false, ERR_ACC := false }

/-- Taking an error, the core's whole exception entry (R285): "no state is saved, no mode changes, no vector is taken". -/
def State.raise (e : Err) (s : State) : State := { s with core := s.core.raise e }

/-- Returning from errors (R286). -/
def State.clearErrors (s : State) : State := { s with core := s.core.clearErrors }

/-! ## Updates of the record -/

/-- `MSG[j] <- v` (10_state.md R46). -/
def State.setMsg (j : Fin 16) (v : Word) (s : State) : State :=
  { s with core := { s.core with MSG := s.core.MSG.set j v } }

/-- The record effect of INIT (45_commands.md R240): MSG and JOB unchanged. -/
def CoreState.newMessage (c : CoreState) : CoreState :=
  { c.clearErrors with H := IV, LEN := 0, DVALID := false, FINALIZED := false }

/-- Take the schedule of the next job: the recorded wait if there is one, else the next free value (log 1). -/
def EngineTurns.draw (t : EngineTurns) : EngineTurns :=
  match t.waits with
  | w :: ws => { wait := w, waits := ws, draws := t.draws }
  | []      => { wait := Config.engineWait t.draws, waits := [], draws := t.draws + 1 }

/-- `JOB <- Some j` (R241, R242): from here BUSY reads 1. -/
def State.startJob (j : Job) (s : State) : State :=
  { s with core := { s.core with JOB := some j }, turns := s.turns.draw }

/-- `FINALIZED <- 1` (R242). -/
def State.setFinalized (s : State) : State :=
  { s with core := { s.core with FINALIZED := true } }

/-! ## Reset -/

/-- The reset event (70_reset_and_hazards.md R320): every element of the record takes its reset value and an in-flight
job is abandoned. Reset stays held for `hold` more steps (R321; log 6). The host's side is no part of the core and is kept, `awaiting` with it: that a
reset leaves R342's STATUS read owed is the model's choice (log 19). -/
def State.applyReset (hold : Nat) (s : State) : State :=
  { s with
    core      := CoreState.reset
    pipe      := Pipeline.reset
    resetHold := hold
    turns     := { s.turns with wait := 0 } }

/-- One step of reset being held: nothing else moves (R321). -/
def State.holdReset (s : State) : State := { s with resetHold := s.resetHold - 1 }

/-! ## The host's side -/

/-- Take the first input off the list: one turn of the host. -/
def State.takeInput (rest : List Input) (s : State) : State :=
  { s with
    host  := { s.host with inputs := rest }
    turns := { s.turns with wait := s.turns.wait - 1 } }

/-- Put a line back at the head: a POLL whose condition does not hold yet (30_encoding.md R110). The POLL so stays before a reset
and before another master's line that waits in the list: DESIGN CHOICE, log 21 and log 22. -/
def State.pushLine (l : Line) (s : State) : State :=
  { s with host := { s.host with inputs := .line l :: s.host.inputs } }

/-- Record a transaction and its response on the bus trace. -/
def State.record (a : Access) (r : Response) (s : State) : State :=
  { s with host := { s.host with trace := (a, r) :: s.host.trace } }

/-- Continue a next state with a function, and leave a fault or a refusal as it is. -/
def andThen (o : Host.Outcome State Fault Refusal) (f : State → State) : Host.Outcome State Fault Refusal :=
  match o with
  | .next s    => .next (f s)
  | .fault r   => .fault r
  | .refused r => .refused r

end Sys2Proof.Machine
end

