-- ==== Sys2Proof/Machine/Flags.lean ====
section
/-! DEFINITION. The flags: BUSY (10_state.md R38), the STATUS word (R42) and the checks a command passes (45_commands.md R244). -/
namespace Sys2Proof.Machine

/-- `BUSY = (JOB != None)` (R30, R38). -/
def CoreState.busy (c : CoreState) : Bool := c.JOB.isSome

/-- STATUS (R42): `zext_32(ERR_ACC || ERR_BUSY || ERR_CMD || ERR_WAF || FINALIZED || DVALID || BUSY)`. -/
def CoreState.status (c : CoreState) : Word :=
  (BitVec.ofBool c.ERR_ACC ++ BitVec.ofBool c.ERR_BUSY ++ BitVec.ofBool c.ERR_CMD ++ BitVec.ofBool c.ERR_WAF ++
    BitVec.ofBool c.FINALIZED ++ BitVec.ofBool c.DVALID ++ BitVec.ofBool c.busy).setWidth 32

/-- The sticky bit of an error (R39). -/
def CoreState.errBit (c : CoreState) : Err → Bool
  | .waf  => c.ERR_WAF
  | .cmd  => c.ERR_CMD
  | .busy => c.ERR_BUSY
  | .acc  => c.ERR_ACC

/-- The busy check (R244): a command met by an in-flight job is dropped and raises ERR_BUSY (60_exceptions.md R281). -/
def whenIdle (s : State) (accepted : Host.Outcome State Fault Refusal) : Host.Outcome State Fault Refusal :=
  if s.core.busy then .next (s.raise .busy) else accepted

/-- The finalize check of UPDATE and FINAL (R241, R242): "write after finalize" is dropped and raises ERR_WAF (R282). -/
def whenOpen (s : State) (accepted : Host.Outcome State Fault Refusal) : Host.Outcome State Fault Refusal :=
  if s.core.FINALIZED then .next (s.raise .waf) else accepted

/-- The access check (20_memory.md R71): size 4 and `off mod 4 = 0`. -/
def accessLegal (off : Offset) (n : Nat) : Bool := n == 4 && off.toNat % 4 == 0

/-- A STATUS read with BUSY = 0 (70_reset_and_hazards.md R342). -/
def sawIdle (a : Access) (r : Response) : Bool :=
  match a, r with
  | .read off 4, .data v => off == Reg.status.off && v.getLsbD 0 == false
  | _, _                 => false

end Sys2Proof.Machine
end

