-- ==== Sys2Proof/Machine/Operands.lean ====
section
/-! DEFINITION. Operands: block bytes packed in MSG words (30_encoding.md R104), the total length FINAL uses
(45_commands.md R242), and the value a window register presents (45_commands.md R260). -/
namespace Sys2Proof.Machine

/-- The 64 bytes of a block, in order (R104). -/
def blockBytes (b : Block) : List Byte := b.toList.flatMap bytesBe32

/-- Pack bytes into a block (R104): word j is `be32` of bytes 4j to 4j+3; a byte the list does not have is 0. -/
def packBlock (bs : List Byte) : Block :=
  blockOf fun j =>
    be32 (bs.getD (4 * j.val) 0) (bs.getD (4 * j.val + 1) 0) (bs.getD (4 * j.val + 2) 0) (bs.getD (4 * j.val + 3) 0)

/-- The successive 64-byte blocks of a byte sequence whose length is a multiple of 64 (44_digest.md R220). -/
def blocksOf (bs : List Byte) : List Block :=
  (List.range (bs.length / 64)).map fun i => packBlock (bs.drop (64 * i))

/-- `Ltot <- trunc_64(LEN + n)` (R242). -/
def totalLen (len : Word64) (n : Nat) : Word64 := len + BitVec.ofNat 64 n

/-- What a read of a window register returns (R260; 10_state.md R42 to R47). -/
def CoreState.readReg (c : CoreState) : Reg → Word
  | .cmd        => 0
  | .status     => c.status
  | .lenLo      => c.LEN.extractLsb' 0 32
  | .lenHi      => c.LEN.extractLsb' 32 32
  | .reserved _ => 0
  | .digest k   => if c.DVALID then c.H[k] else 0
  | .msg j      => c.MSG[j]

/-- What a legal read at an offset returns. -/
def CoreState.readOff (c : CoreState) (off : Offset) : Word := c.readReg (Reg.ofOffset off)

end Sys2Proof.Machine
end

