-- ==== Sys2Proof/Machine/Padding.lean ====
section
/-! DEFINITION. The padding unit (41_padding.md): the reference padding of a whole message and the tail padding FINAL uses. -/
namespace Sys2Proof.Machine

/-- `z = (55 - L) mod 64`, the number of zero bytes (R150), written without a negative number: 119 = 55 + 64. -/
def padZeros (L : Nat) : Nat := (119 - L % 64) % 64

/-- The bytes that follow a message of which the last `L` bytes are counted: `0x80 || 0x00^z || be64(bits)` (R150, R153). -/
def padSuffix (L : Nat) (bits : Word64) : List Byte := 0x80 :: (List.replicate (padZeros L) 0 ++ be64 bits)

/-- `pad(m)` (R150): the length field is `be64((8 * L) mod 2^64)`. -/
def pad (m : List Byte) : List Byte := m ++ padSuffix m.length (BitVec.ofNat 64 (8 * m.length))

/-- The padded tail T of `padtail` (R153): the first `n` bytes of M, then the suffix with the total length. -/
def padtailBytes (M : Block) (n : Nat) (ltot : Word64) : List Byte :=
  (blockBytes M).take n ++ padSuffix n (8 * ltot)

/-- `padtail(M, n, Ltot)` (R153): one block when n <= 55, two when n >= 56. -/
def padtail (M : Block) (n : Nat) (ltot : Word64) : List Block :=
  let T := padtailBytes M n ltot
  if n ≤ 55 then [packBlock (T.take 64)]
  else [packBlock (T.take 64), packBlock ((T.drop 64).take 64)]

end Sys2Proof.Machine
end

