-- ==== Sys2Proof/Machine/Commands.lean ====
section
/-! DEFINITION. The meanings of the four commands (45_commands.md R240 to R243), each after the legality check of R244. -/
namespace Sys2Proof.Machine

/-- INIT (R240). -/
def execInit (s : State) : Host.Outcome State Fault Refusal :=
  whenIdle s (.next { s with core := s.core.newMessage })

/-- The job of UPDATE (R241): the MSG snapshot. -/
def updateJob (c : CoreState) : Job where
  kind   := .update
  blocks := [c.MSG]
  newlen := c.LEN + 64

/-- UPDATE (R241). -/
def execUpdate (s : State) : Host.Outcome State Fault Refusal :=
  whenIdle s (whenOpen s (.next (s.startJob (updateJob s.core))))

/-- The job of FINAL n (R242): the padded tail. -/
def finalJob (n : Nat) (c : CoreState) : Job where
  kind   := .final
  blocks := padtail c.MSG n (totalLen c.LEN n)
  newlen := totalLen c.LEN n

/-- FINAL n (R242). -/
def execFinal (n : Nat) (s : State) : Host.Outcome State Fault Refusal :=
  whenIdle s (whenOpen s (.next (s.startJob (finalJob n s.core)).setFinalized))

/-- CLRERR (R243): no busy check. -/
def execClrerr (s : State) : Host.Outcome State Fault Refusal := .next s.clearErrors

end Sys2Proof.Machine
end

