-- ==== Sys2Proof/Machine/Dispatch.lean ====
section
/-! DEFINITION. The command dispatch (45_commands.md R244): one arm per command. -/
namespace Sys2Proof.Machine

/-- The meaning of a legal command. -/
def exec (i : Instr) (s : State) : Host.Outcome State Fault Refusal :=
  match i with
  | .init => Sys2Proof.Machine.execInit s
  | .update => Sys2Proof.Machine.execUpdate s
  | .final nbytes => Sys2Proof.Machine.execFinal nbytes s
  | .clrerr => Sys2Proof.Machine.execClrerr s

end Sys2Proof.Machine
end

