-- ==== Sys2Proof/Machine/Schedule.lean ====
section
/-! DEFINITION. Message schedule expansion (42_schedule.md): the 64 words and the 16-word window. -/
namespace Sys2Proof.Machine

/-- `sigma0(x)` (R172). -/
def sigma0 (x : Word) : Word := rotr x 7 ^^^ rotr x 18 ^^^ shr x 3

/-- `sigma1(x)` (R173). -/
def sigma1 (x : Word) : Word := rotr x 17 ^^^ rotr x 19 ^^^ shr x 10

/-- The sum of R171 for the four words it reads. -/
def scheduleSum (w16 w15 w7 w2 : Word) : Word := add32 [w16, sigma0 w15, w7, sigma1 w2]

/-- The word that follows the words computed so far (R171), of which there are at least 16. -/
def nextWord (ws : List Word) : Word :=
  let i := ws.length
  scheduleSum (ws.getD (i - 16) 0) (ws.getD (i - 15) 0) (ws.getD (i - 7) 0) (ws.getD (i - 2) 0)

/-- Append `n` more schedule words, in increasing order. -/
def extendSchedule : Nat → List Word → List Word
  | 0, ws     => ws
  | n + 1, ws => extendSchedule n (ws ++ [nextWord ws])

/-- W[0..63] of a block (R170, R171): the 16 packed words, then 48 more. -/
def schedule (b : Block) : List Word := extendSchedule 48 b.toList

/-- The window step of round `i` (R174): the word round `i` uses, and the window after it. -/
def windowStep (i : Nat) (w : Block) : Word × Block :=
  if i < 16 then (w[Fin.ofNat 16 i], w)
  else
    let v := scheduleSum w[Fin.ofNat 16 i] w[Fin.ofNat 16 (i + 1)] w[Fin.ofNat 16 (i + 9)] w[Fin.ofNat 16 (i + 14)]
    (v, w.set (Fin.ofNat 16 i) v)

/-- The window before round `i` of a block: loaded with the block, then stepped once for each earlier round (R174). -/
def windowAt : Nat → Block → Block
  | 0, b     => b
  | i + 1, b => (windowStep i (windowAt i b)).2

end Sys2Proof.Machine
end

