-- ==== Sys2Proof/Machine/Compression.lean ====
section
/-! DEFINITION. Compression rounds and the accumulate step (43_compression.md). -/
namespace Sys2Proof.Machine

/-- `Sigma1(e)` (R198). -/
def bigSigma1 (e : Word) : Word := rotr e 6 ^^^ rotr e 11 ^^^ rotr e 25

/-- `Ch(e, f, g)` (R199). -/
def ch (e f g : Word) : Word := (e &&& f) ^^^ (~~~e &&& g)

/-- `Sigma0(a)` (R200). -/
def bigSigma0 (a : Word) : Word := rotr a 2 ^^^ rotr a 13 ^^^ rotr a 22

/-- `Maj(a, b, c)` (R201). -/
def maj (a b c : Word) : Word := (a &&& b) ^^^ (a &&& c) ^^^ (b &&& c)

/-- Load the working variables from H (R190). -/
def Vars.load (H : HashState) : Vars := ⟨H[0], H[1], H[2], H[3], H[4], H[5], H[6], H[7]⟩

/-- `t1` (R192), with round constant `k` and schedule word `w`. -/
def Vars.t1 (v : Vars) (k w : Word) : Word := add32 [v.h, bigSigma1 v.e, ch v.e v.f v.g, k, w]

/-- `t2` (R193). -/
def Vars.t2 (v : Vars) : Word := add32 [bigSigma0 v.a, maj v.a v.b v.c]

/-- One round (R191, R194): one simultaneous assignment of the eight variables. -/
def Vars.round (v : Vars) (k w : Word) : Vars :=
  { h := v.g, g := v.f, f := v.e, e := add32 [v.d, v.t1 k w],
    d := v.c, c := v.b, b := v.a, a := add32 [v.t1 k w, v.t2] }

/-- The rounds over a list of constant and schedule word pairs, in order (R195). -/
def Vars.rounds (v : Vars) (kws : List (Word × Word)) : Vars :=
  kws.foldl (fun v kw => v.round kw.1 kw.2) v

/-- Accumulate (R196): add each variable back into its word of H. -/
def accumulate (H : HashState) (v : Vars) : HashState :=
  #v[add32 [H[0], v.a], add32 [H[1], v.b], add32 [H[2], v.c], add32 [H[3], v.d],
     add32 [H[4], v.e], add32 [H[5], v.f], add32 [H[6], v.g], add32 [H[7], v.h]]

/-- `compress(H, B)` (R202): load, 64 rounds, accumulate. -/
def compress (H : HashState) (b : Block) : HashState :=
  accumulate H ((Vars.load H).rounds (kTable.zip (schedule b)))

/-- Blocks are compressed in order, each from the state the one before left (R203). -/
def compressAll (H : HashState) (bs : List Block) : HashState := bs.foldl compress H

end Sys2Proof.Machine
end

