-- ==== Sys2Proof/Machine/Engine.lean ====
section
/-! DEFINITION. The engine: the cycle-level steps of one block and of a job (43_compression.md R197, 42_schedule.md R174),
and the atomic completion of a job (45_commands.md R250). -/
namespace Sys2Proof.Machine

/-! ## The cycle-level steps of a block -/

/-- The load step (R190, R197): the variables from H, the window from the block, `ROUND <- 0`. R197's load step names the variables and
ROUND only, and R174 only that round i < 16 uses `w[i] = W[i]`: that this step fills all 16 words of the window is the model's choice
(DESIGN CHOICE, log 24). -/
def Pipeline.load (H : HashState) (b : Block) (p : Pipeline) : Pipeline :=
  { p with ROUND := 0, vars := Vars.load H, W := b }

/-- A round step (R197): round ROUND with the window's word, then `ROUND <- ROUND + 1`. -/
def Pipeline.roundStep (p : Pipeline) : Pipeline :=
  let r := p.ROUND.toNat
  let (w, W) := windowStep r p.W
  { p with ROUND := p.ROUND + 1, vars := p.vars.round (K r) w, W := W }

/-- `n` round steps. -/
def Pipeline.roundSteps : Nat → Pipeline → Pipeline
  | 0, p     => p
  | n + 1, p => roundSteps n p.roundStep

/-- The load step and the 64 round steps of block `i` of a job (R197), with BLK at `i` before them (DESIGN CHOICE, log 20). -/
def Pipeline.runBlock (i : Nat) (H : HashState) (b : Block) (p : Pipeline) : Pipeline :=
  (({ p with BLK := BitVec.ofNat 1 i }).load H b).roundSteps 64

/-- The pipeline after the blocks of a job from block `i` on; each block's load reads the H that the accumulate step of
the block before wrote (R197). -/
def Pipeline.runBlocks (i : Nat) (H : HashState) : List Block → Pipeline → Pipeline
  | [], p      => p
  | b :: bs, p =>
    let p' := p.runBlock i H b
    p'.runBlocks (i + 1) (accumulate H p'.vars) bs

/-! ## Completion -/

/-- The record after the completion of job `j` (R250). -/
def CoreState.complete (j : Job) (c : CoreState) : CoreState :=
  { c with
    H      := compressAll c.H j.blocks
    LEN    := j.newlen
    DVALID := if j.kind = .final then true else c.DVALID
    JOB    := none }

/-- The engine's step (R250): enabled exactly when `JOB = Some j`, one atomic step. The hidden state is what the
cycle-level steps leave (log 9). -/
def State.complete (s : State) : State :=
  match s.core.JOB with
  | none   => s
  | some j =>
    { s with
      core  := s.core.complete j
      pipe  := s.pipe.runBlocks 0 s.core.H j.blocks
      turns := { s.turns with wait := 0 } }

/-- The engine takes its step now: a job is in flight and its wait is over or the host has nothing to do (R251; log 1, log 2). -/
def State.engineDue (s : State) : Bool :=
  s.core.busy && (s.turns.wait == 0 || s.host.inputs.isEmpty)

/-! ## The cycle-level engine (refinement only, 10_state.md R37) -/

/-- A cycle-level engine: the record, the hidden state, and whether the block BLK has been loaded (the model's own bit). -/
structure CycleEngine where
  core   : CoreState
  pipe   : Pipeline
  loaded : Bool
  deriving DecidableEq, Repr

/-- The cycle-level engine at the start of a job: block 0, not loaded. That `BLK <- 0` happens here, before the first load step, is
the model's choice (DESIGN CHOICE, log 20). -/
def CycleEngine.start (s : State) : CycleEngine where
  core   := s.core
  pipe   := { s.pipe with BLK := 0 }
  loaded := false

/-- The accumulate step (R196, R197), with the completion of the job after its last block (R250): that LEN,
DVALID and JOB are written in this same step is the model's choice (DESIGN CHOICE, log 24). R197 says only that "BLK goes 0
then 1": that the first block's accumulate step writes the 1 is the model's choice (DESIGN CHOICE, log 20). -/
def CycleEngine.accumulateStep (j : Job) (c : CycleEngine) : CycleEngine :=
  let H := accumulate c.core.H c.pipe.vars
  if c.pipe.BLK.toNat + 1 < j.blocks.length then
    { core := { c.core with H := H }, pipe := { c.pipe with BLK := c.pipe.BLK + 1 }, loaded := false }
  else
    { core := { c.core with
        H      := H
        LEN    := j.newlen
        DVALID := if j.kind = .final then true else c.core.DVALID
        JOB    := none },
      pipe := c.pipe, loaded := false }

/-- One cycle-level step (R197): load, one of the 64 rounds, or accumulate when ROUND = 64. -/
def CycleEngine.next (c : CycleEngine) : CycleEngine :=
  match c.core.JOB with
  | none   => c
  | some j =>
    if !c.loaded then
      { c with pipe := c.pipe.load c.core.H (j.blocks.getD c.pipe.BLK.toNat (Vector.replicate 16 0)), loaded := true }
    else if c.pipe.ROUND.toNat < 64 then { c with pipe := c.pipe.roundStep }
    else c.accumulateStep j

/-- `n` cycle-level steps. -/
def CycleEngine.run : Nat → CycleEngine → CycleEngine
  | 0, c     => c
  | n + 1, c => run n c.next

end Sys2Proof.Machine
end

