-- ==== Sys2Proof/Machine/Transactions.lean ====
section
/-! DEFINITION. The host's transactions (45_commands.md R244, R260, R261), the lines of a host program (30_encoding.md R110)
and the inputs of the machine. -/
namespace Sys2Proof.Machine

/-- `command(w)` (R244): an illegal word raises ERR_CMD; a legal one is executed, which makes the further checks in order. -/
def command (w : Word) (s : State) : Host.Outcome State Fault Refusal :=
  match decode w with
  | .error _ => .next (s.raise .cmd)
  | .ok i    => exec i s

/-- The host read step `MemRead(off, n)` (R260). -/
def memRead (off : Offset) (n : Nat) (s : State) : Response × State :=
  if accessLegal off n then (.data (s.core.readOff off), s) else (.error, s.raise .acc)

/-- The effect of a legal write (R261): CMD presents a command, MSG is written, every other register ignores it. -/
def writeReg (r : Reg) (v : Word) (s : State) : Host.Outcome State Fault Refusal :=
  match r with
  | .cmd        => command v s
  | .msg j      => .next (s.setMsg j v)
  | .status     => .next s
  | .lenLo      => .next s
  | .lenHi      => .next s
  | .reserved _ => .next s
  | .digest _   => .next s

/-- The host write step `MemWrite(off, n, v)` (R261). -/
def memWrite (off : Offset) (n : Nat) (v : Word) (s : State) : Response × Host.Outcome State Fault Refusal :=
  if accessLegal off n then (.okay, writeReg (Reg.ofOffset off) v s) else (.error, .next (s.raise .acc))

/-- The response of a transaction and its effect on the core. -/
def access (a : Access) (s : State) : Response × Host.Outcome State Fault Refusal :=
  match a with
  | .read off n    => ((memRead off n s).1, .next (memRead off n s).2)
  | .write off n v => memWrite off n v s

/-- Whether the run still owes a STATUS read with BUSY = 0 (70_reset_and_hazards.md R342), after a transaction on `before`
that was answered `r` and left `after`. -/
def awaitingAfter (a : Access) (r : Response) (before after : State) : Bool :=
  if !before.core.busy && after.core.busy then true
  else if sawIdle a r then false
  else after.host.awaiting

/-- Record a transaction of the host on its side: the trace and R342's bookkeeping. -/
def noted (a : Access) (r : Response) (before after : State) : State :=
  { after.record a r with
    host := { (after.record a r).host with awaiting := awaitingAfter a r before after } }

/-- One transaction of the host, atomic (R260, R261). -/
def transact (a : Access) (s : State) : Host.Outcome State Fault Refusal :=
  andThen (access a s).2 (noted a (access a s).1 s)

/-- What the host program does with the value a line's read returned (30_encoding.md R110): POLL repeats until
`(result and mask) == value`, EXPECT fails the program on another value (log 12). A POLL goes back to the head, so no reset of the list (DESIGN CHOICE,
log 21) and no line of another master (DESIGN CHOICE, log 22) falls between two of its reads. -/
def afterLine (l : Line) (before : State) (s : State) : State :=
  match l with
  | .poll r mask value =>
    if before.core.readReg r &&& mask = value then s else s.pushLine (.poll r mask value)
  | .expect r imm =>
    if before.core.readReg r = imm then s
    else { s with host := { s.host with expectFailed := true } }
  | .wr _ _    => s
  | .rd _      => s
  | .rdx _ _   => s
  | .wrx _ _ _ => s

/-- One line of the host program: its transaction, then the host's own reaction. -/
def performLine (l : Line) (s : State) : Host.Outcome State Fault Refusal :=
  andThen (transact l.access s) (afterLine l s)

/-- One input: a line, or the reset event (70_reset_and_hazards.md R320). -/
def performInput (i : Input) (s : State) : Host.Outcome State Fault Refusal :=
  match i with
  | .line l     => performLine l s
  | .reset hold => .next (s.applyReset hold)

/-- The host's or the platform's turn: the oldest input, or nothing where there is none. The spec gives resets no order among a
host's lines (70_reset_and_hazards.md R320); that the two wait in one list and are taken oldest first is the model's choice
(DESIGN CHOICE, log 21). -/
def hostTurn (s : State) : Host.Outcome State Fault Refusal :=
  match s.host.inputs with
  | []        => .next s
  | i :: rest => performInput i (s.takeInput rest)

/-- Put an input at the head of the list so that the very next step performs it: reset is not held and the engine's
step is not due (log 5). -/
def State.putFirst (i : Input) (s : State) : State :=
  { s with
    resetHold := 0
    host      := { s.host with inputs := i :: s.host.inputs }
    turns     := { s.turns with wait := s.turns.wait + 1 } }

/-- The transactions the host performed, newest first, with what BUS carried back of each response (R70; log 13). -/
def HostSide.seen (h : HostSide) : List (Access × Option Response) := h.trace.map fun ar => (ar.1, ar.2.onBus)

/-- A bus request from outside joins the inputs if it is addressed to the core (20_memory.md R70); otherwise it is
"the platform's business". -/
def State.present (q : BusRequest) (s : State) : State :=
  match q.line with
  | none   => s
  | some l => { s with host := { s.host with inputs := s.host.inputs ++ [.line l] } }

/-- The requests that reached the core, in the order they arrived (20_memory.md R79, R85; `BusDelivers` for the order they were
issued in). -/
def State.presentAll (qs : List BusRequest) (s : State) : State := qs.foldl (fun t q => t.present q) s

end Sys2Proof.Machine
end

