-- ==== Sys2Proof/Machine/Step.lean ====
section
/-! DEFINITION. One step of the machine: reset held, the engine's turn, or the host's turn (00_scope.md R7, 20_memory.md R79). -/
namespace Sys2Proof.Machine

/-- One step. While reset is held the host is stuck (70_reset_and_hazards.md R321); else the engine completes its job
when its turn has come (45_commands.md R250, R251); else the oldest input is performed. -/
def step (s : State) : Host.Outcome State Fault Refusal :=
  if s.resetHold ≠ 0 then .next s.holdReset
  else if s.engineDue then .next s.complete
  else hostTurn s

/-- The command word `w` stored where the next step takes it: a CMD write at the head of the host's program (log 5). -/
def State.withFetchWord (s : State) (nbits w : Nat) : State :=
  s.putFirst (.line (.wr .cmd (BitVec.ofNat 32 (w % 2 ^ nbits))))

end Sys2Proof.Machine
end

