-- ==== Sys2Proof/Machine/Timing.lean ====
section
/-! DEFINITION. Latencies (70_reset_and_hazards.md R340, R341): informative, no step reads them. -/
namespace Sys2Proof.Machine

/-- The cycles a job keeps BUSY = 1: T_BLOCK for each of its blocks (R340, 00_scope.md R8). -/
def Job.busyCycles (j : Job) : Nat := j.blocks.length * Config.tBlock

/-- The cycles an accepted command keeps BUSY = 1, by R340's table. -/
def busyCycles : Instr → Nat
  | .init    => 0
  | .update  => Config.tBlock
  | .final n => if n ≤ 55 then Config.tBlock else 2 * Config.tBlock
  | .clrerr  => 0

end Sys2Proof.Machine
end

