-- ==== Sys2Proof/Machine/Digest.lean ====
section
/-! DEFINITION. The digest serializer and the reference hash function (44_digest.md). -/
namespace Sys2Proof.Machine

/-- `serialize(H)` (R224, 30_encoding.md R105). -/
def serialize (H : HashState) : List Byte := H.toList.flatMap bytesBe32

/-- `sha256(m)` (R220), the reference every command sequence must agree with. -/
def sha256 (m : List Byte) : List Byte := serialize (compressAll IV (blocksOf (pad m)))

/-- The 32 bytes a host assembles from DIGEST0 to DIGEST7 (R224, R225). -/
def CoreState.digestBytes (c : CoreState) : List Byte :=
  (hashState fun k => c.readReg (.digest k)).toList.flatMap bytesBe32

end Sys2Proof.Machine
end

