-- ==== Sys2Proof/Machine/Program.lean ====
section
/-! DEFINITION. Host programs (30_encoding.md R110, R111): the pseudo-instructions, the command sequence of a message
(41_padding.md R154) and the end of a run (70_reset_and_hazards.md R342). -/
namespace Sys2Proof.Machine

/-- A pseudo-instruction that is a command: `WR CMD, w` (R111). -/
def commandLine (i : Instr) : Line := .wr .cmd (encode i)

/-- `WAIT` (R111): POLL STATUS until BUSY = 0. -/
def waitLine : Line := .poll .status 1 0

/-- The sixteen indices of MSG. -/
def msgIndices : List (Fin 16) := [0, 1, 2, 3, 4, 5, 6, 7, 8, 9, 10, 11, 12, 13, 14, 15]

/-- `LOADBLK b0 ... b63` (R111): missing bytes are 0. -/
def loadBlk (bs : List Byte) : List Line := msgIndices.map fun j => .wr (.msg j) (packBlock bs)[j]

/-- `READDIGEST` (R111). -/
def readDigest : List Line :=
  [.rd (.digest 0), .rd (.digest 1), .rd (.digest 2), .rd (.digest 3),
   .rd (.digest 4), .rd (.digest 5), .rd (.digest 6), .rd (.digest 7)]

/-- The last bytes of a message, those after its full blocks (41_padding.md R154). -/
def lastBytes (m : List Byte) : List Byte := m.drop (64 * (m.length / 64))

/-- The recommended host sequence of a message (70_reset_and_hazards.md R324). R324 and R154 leave open where the MSG writes stand
relative to a WAIT, and R332 allows them while busy; they ask for the last n bytes only. That each LOADBLK stands after the WAIT, and
that it always writes all 16 words, zeros past the message and for FINAL 0 too, is the model's choice (DESIGN CHOICE, log 25). -/
def messageProgram (m : List Byte) : List Line :=
  commandLine .init ::
    ((List.range (m.length / 64)).flatMap (fun k =>
        loadBlk ((m.drop (64 * k)).take 64) ++ [commandLine .update, waitLine]) ++
      loadBlk (lastBytes m) ++ [commandLine (.final (m.length % 64)), waitLine] ++ readDigest)

/-- Load a host program from outside the machine (log 5). The rest of the host's side is kept, `awaiting` with it: that a new program
still owes the STATUS read of R342 for a command written before it is the model's choice (log 19). -/
def State.load (p : List Line) (s : State) : State :=
  { s with host := { s.host with inputs := p.map .line } }

/-- The end of a run (R342): the last line has executed and, if a command set BUSY, a later STATUS read has returned BUSY = 0.
Neither a reset nor a new program stands in for that read (the model's choice, log 19).
R342 names lines only: that a reset still queued behind the last line keeps the run open is the model's choice (DESIGN CHOICE,
log 23). -/
def State.runEnded (s : State) : Bool := s.host.inputs.isEmpty && !s.host.awaiting

/-! ## The command sequence at the level of the commands (R154, R225) -/

/-- Load a block into MSG, the effect of sixteen MSG writes at once (DESIGN CHOICE, log 25). -/
def State.loadMsg (b : Block) (s : State) : State := { s with core := { s.core with MSG := b } }

/-- Load a block, write the command, and let the engine complete the job. -/
def absorb (b : Block) (i : Instr) (s : State) : Host.Outcome State Fault Refusal :=
  andThen (exec i (s.loadMsg b)) State.complete

/-- Continue a next state with a step that may stop. -/
def chain (o : Host.Outcome State Fault Refusal) (f : State → Host.Outcome State Fault Refusal) :
    Host.Outcome State Fault Refusal :=
  match o with
  | .next s    => f s
  | .fault r   => .fault r
  | .refused r => .refused r

/-- One UPDATE for each full block of a message, in order (R154). -/
def absorbBlocks : List Block → State → Host.Outcome State Fault Refusal
  | [], s      => .next s
  | b :: bs, s => chain (absorb b .update s) (absorbBlocks bs)

/-- The command sequence of a message (R154): its full blocks by UPDATE, then FINAL with the rest, MSG being 0 past
the last bytes (DESIGN CHOICE, log 25). -/
def hashMessage (m : List Byte) (s : State) : Host.Outcome State Fault Refusal :=
  chain (absorbBlocks (blocksOf m) s) (absorb (packBlock (lastBytes m)) (.final (m.length % 64)))

end Sys2Proof.Machine
end

