-- ==== Sys2Proof/Safety.lean ====
section
/-! DEFINITION. What claims call a safe run: the step answers a next state, and the record keeps its invariants (10_state.md R49). -/
namespace Sys2Proof.Machine

/-- The machine goes on. -/
def Runs (o : Host.Outcome State Fault Refusal) : Prop := ∃ t, o = .next t

/-- (c) and (d) of R49, with the block count of R153 and the new length of R241. -/
def CoreState.JobOk (c : CoreState) (j : Job) : Prop :=
  (j.kind = .update → c.FINALIZED = false ∧ j.blocks.length = 1 ∧ j.newlen = c.LEN + 64) ∧
  (j.kind = .final → c.FINALIZED = true ∧ (j.blocks.length = 1 ∨ j.blocks.length = 2))

/-- The invariants of R49: (a), (b), and (c) with (d) for the job in flight. -/
structure CoreState.Inv (c : CoreState) : Prop where
  /-- (a) DVALID = 1 implies FINALIZED = 1 and BUSY = 0. -/
  digestValid : c.DVALID = true → c.FINALIZED = true ∧ c.busy = false
  /-- (b) FINALIZED = 0 implies LEN mod 64 = 0. -/
  lenAligned  : c.FINALIZED = false → c.LEN.toNat % 64 = 0
  /-- (c) and (d). -/
  jobOk       : ∀ j, c.JOB = some j → c.JobOk j

/-- No error bit is set (44_digest.md R225). -/
def CoreState.errorFree (c : CoreState) : Bool := !c.ERR_WAF && !c.ERR_CMD && !c.ERR_BUSY && !c.ERR_ACC

/-- A new message may begin: no job in flight, not finalized, nothing absorbed (R225, 70_reset_and_hazards.md R323). -/
def CoreState.Fresh (c : CoreState) : Prop :=
  c.JOB = none ∧ c.FINALIZED = false ∧ c.H = IV ∧ c.LEN = 0

/-- The next step is the host's or the platform's: reset is not held and the engine's turn has not come. -/
def State.hostMoves (s : State) : Bool := s.resetHold == 0 && !s.engineDue

/-- The legal command a transaction presents, if it is a legal-size CMD write of a legal word (45_commands.md R244, R261). -/
def Access.command (a : Access) : Option Instr :=
  match a with
  | .read _ _      => none
  | .write off n w =>
    if accessLegal off n && Reg.ofOffset off == .cmd then
      match decode w with
      | .ok i    => some i
      | .error _ => none
    else none

/-- The next step performs a line that presents command `i`. -/
def State.NextCommand (s : State) (i : Instr) : Prop :=
  s.hostMoves = true ∧ ∃ l rest, s.host.inputs = .line l :: rest ∧ l.access.command = some i

/-- The next step is the reset event. -/
def State.NextReset (s : State) : Prop :=
  s.hostMoves = true ∧ ∃ hold rest, s.host.inputs = .reset hold :: rest

end Sys2Proof.Machine
end

