-- ==== Sys2Proof/Certificates/Slice0/Obligations.lean ====
section
/-! DEFINITION. The statements for the provers, from the numbered rules of spec/. -/
open Sys2Proof Sys2Proof.Machine

/-! ## Reset -/

/-- 10_state.md R51: every element of the record after reset, and the likeness of INIT. -/
def Obligations.ResetRecordAndInitLikeness : Prop :=
  State.reset.core.H = IV ∧ (∀ j : Fin 16, State.reset.core.MSG[j] = 0) ∧ State.reset.core.LEN = 0 ∧
  State.reset.core.DVALID = false ∧ State.reset.core.FINALIZED = false ∧
  State.reset.core.ERR_WAF = false ∧ State.reset.core.ERR_CMD = false ∧
  State.reset.core.ERR_BUSY = false ∧ State.reset.core.ERR_ACC = false ∧ State.reset.core.JOB = none ∧
  ∀ s : State, s.core.JOB = none →
    ∃ t, exec .init s = .next t ∧ t.core = { State.reset.core with MSG := s.core.MSG }

/-- 70_reset_and_hazards.md R320: the reset event, and "Reset is the only event that can stop a job". Two clauses are the model's
choice: that reset is then held for the number of steps the input carries (log 6), and that the host's side is kept (log 4, log 19). -/
def Obligations.ResetEventResetsAndAloneStopsJob : Prop :=
  (∀ (s : State) (hold : Nat) (rest : List Input),
    s.hostMoves = true → s.host.inputs = .reset hold :: rest →
    ∃ t, step s = .next t ∧
      t.core = { H := IV, MSG := Vector.replicate 16 0, LEN := 0, DVALID := false, FINALIZED := false,
                 ERR_WAF := false, ERR_CMD := false, ERR_BUSY := false, ERR_ACC := false, JOB := none } ∧
      t.resetHold = hold ∧ t.host = { s.host with inputs := rest }) ∧
  (∀ (s t : State) (j : Job), s.core.JOB = some j → step s = .next t →
    t.core.JOB = some j ∨ t.core = s.core.complete j ∨ s.NextReset)

/-- 70_reset_and_hazards.md R321: while reset is held the core accepts no transaction. That the time is counted in
steps is the model's choice (log 6). -/
def Obligations.HeldResetAcceptsNothing : Prop :=
  ∀ s : State, s.resetHold ≠ 0 → step s = .next { s with resetHold := s.resetHold - 1 }

/-- 70_reset_and_hazards.md R323: after reset STATUS reads 0, H holds IV, and the next legal command is accepted: the STATUS it leaves
shows no error. That every other register reads 0 is not in R323: it follows from 10_state.md R51 with R42 to R47, and is
95_test_vectors.md V21, which the spec marks as derived. -/
def Obligations.ReadyAtOnceAfterReset : Prop :=
  State.reset.core.H = IV ∧
  (∀ off : Offset, accessLegal off 4 = true → access (.read off 4) State.reset = (.data 0, .next State.reset)) ∧
  (∀ i : Instr, i.WellFormed → ∃ t, exec i State.reset = .next t ∧
    t.core.status = match i with
      | .init    => 0x00000000
      | .update  => 0x00000001
      | .final _ => 0x00000005
      | .clrerr  => 0x00000000)

/-! ## Encoding -/

/-- 30_encoding.md section 1: decoding the word of a well-formed command gives the command back. -/
def Obligations.DecodeEncodeRoundTrip : Prop :=
  ∀ i : Instr, i.WellFormed → decode (encode i) = .ok i

/-- 30_encoding.md section 1: a word decodes to one command only, the well-formed one whose word it is. -/
def Obligations.EncodeDecodeRoundTrip : Prop :=
  ∀ (w : Word) (i : Instr), decode w = .ok i → i.WellFormed ∧ encode i = w

/-- 30_encoding.md R103: legality as arithmetic on the word; an illegal word raises ERR_CMD and has no other effect; there are
exactly 67 legal words, listed. The count is the spec's own inference in R103 ("There are exactly 67 legal command words"). -/
def Obligations.LegalWordsExactly : Prop :=
  (∀ w : Word, legal w = true ↔
    (w.toNat / 1024 = 0 ∧
      (((w.toNat % 16 = 1 ∨ w.toNat % 16 = 2 ∨ w.toNat % 16 = 4) ∧ w.toNat / 16 % 64 = 0) ∨ w.toNat % 16 = 3))) ∧
  (∀ w : Word, legal w = true ↔ ∃ i, decode w = .ok i) ∧
  (∀ (w : Word) (s : State), legal w = false → command w s = .next { s with core := { s.core with ERR_CMD := true } }) ∧
  (∀ w : Word, legal w = true ↔ w.toNat ∈ [1, 2, 4] ++ (List.range 64).map (fun n => 3 + 16 * n)) ∧
  ([1, 2, 4] ++ (List.range 64).map (fun n => 3 + 16 * n)).Nodup ∧
  ([1, 2, 4] ++ (List.range 64).map (fun n => 3 + 16 * n)).length = 67

/-- Words written out from 30_encoding.md R100 and R101, bits 31:10, 9:4 and 3:0. That the last three words are illegal is R103 and
R108; the names of the three reasons are the model's choice, which the core records nowhere (log 15). -/
def Obligations.WordsFromTheOpcodeMap : Prop :=
  decode 0b00000000000000000000000000000001#32 = .ok .init ∧
  decode 0b00000000000000000000000000000010#32 = .ok .update ∧
  decode 0b00000000000000000000000000110011#32 = .ok (.final 3) ∧
  decode 0b00000000000000000000001111110011#32 = .ok (.final 63) ∧
  decode 0b00000000000000000000000000000100#32 = .ok .clrerr ∧
  decode 0b00000000000000000000000000000101#32 = .error .opcode ∧
  decode 0b00000000000000000000000000010001#32 = .error .nbytes ∧
  decode 0b00000000000000000000010000000011#32 = .error .reservedBits

/-! ## Commands -/

/-- 45_commands.md R240. -/
def Obligations.InitStartsNewMessage : Prop :=
  decode 0x00000001 = .ok .init ∧
  ∀ s : State,
    (s.core.JOB = none →
      exec .init s = .next { s with core := { s.core with
        H := IV, LEN := 0, DVALID := false, FINALIZED := false,
        ERR_WAF := false, ERR_CMD := false, ERR_BUSY := false, ERR_ACC := false } }) ∧
    (∀ j, s.core.JOB = some j → exec .init s = .next { s with core := { s.core with ERR_BUSY := true } })

/-- 45_commands.md R241: the acceptance. That `turns` becomes `turns.draw` is the model's schedule, not the spec's (log 1). That MSG
writes during the job are not seen is `TransactionsDoNotDisturbTheJob`. -/
def Obligations.UpdateTakesTheBlock : Prop :=
  decode 0x00000002 = .ok .update ∧
  ∀ s : State,
    (s.core.JOB = none → s.core.FINALIZED = false →
      exec .update s = .next { s with
        core  := { s.core with JOB := some { kind := .update, blocks := [s.core.MSG], newlen := s.core.LEN + 64 } }
        turns := s.turns.draw }) ∧
    (s.core.JOB = none → s.core.FINALIZED = true →
      exec .update s = .next { s with core := { s.core with ERR_WAF := true } }) ∧
    (∀ j, s.core.JOB = some j → exec .update s = .next { s with core := { s.core with ERR_BUSY := true } })

/-- 45_commands.md R242: the acceptance. That `turns` becomes `turns.draw` is the model's schedule, not the spec's (log 1). That DVALID
rises at completion is `CompletionStep`. -/
def Obligations.FinalPadsTheLastBytes : Prop :=
  ∀ n : Nat, n ≤ 63 →
    decode (BitVec.ofNat 32 (3 + 16 * n)) = .ok (.final n) ∧
    ∀ s : State,
      (s.core.JOB = none → s.core.FINALIZED = false →
        exec (.final n) s = .next { s with
          core := { s.core with
            FINALIZED := true
            JOB := some { kind   := .final
                          blocks := padtail s.core.MSG n (s.core.LEN + BitVec.ofNat 64 n)
                          newlen := s.core.LEN + BitVec.ofNat 64 n } }
          turns := s.turns.draw }) ∧
      (s.core.JOB = none → s.core.FINALIZED = true →
        exec (.final n) s = .next { s with core := { s.core with ERR_WAF := true } }) ∧
      (∀ j, s.core.JOB = some j → exec (.final n) s = .next { s with core := { s.core with ERR_BUSY := true } })

/-- 45_commands.md R243: accepted in every state. -/
def Obligations.ClrerrClearsTheErrorBits : Prop :=
  decode 0x00000004 = .ok .clrerr ∧
  ∀ s : State, exec .clrerr s = .next { s with core := { s.core with
    ERR_WAF := false, ERR_CMD := false, ERR_BUSY := false, ERR_ACC := false } }

/-- The frame of the four commands, and what each may change (45_commands.md R240 to R243). -/
def Obligations.CommandFrame : Prop :=
  ∀ (i : Instr) (s t : State), exec i s = .next t →
    t.core.MSG = s.core.MSG ∧ t.pipe = s.pipe ∧ t.host = s.host ∧ t.resetHold = s.resetHold ∧
    (i ≠ .init → t.core.H = s.core.H ∧ t.core.LEN = s.core.LEN ∧ t.core.DVALID = s.core.DVALID) ∧
    (i = .init ∨ i = .clrerr → t.core.JOB = s.core.JOB ∧ t.turns = s.turns) ∧
    (i = .update ∨ i = .clrerr → t.core.FINALIZED = s.core.FINALIZED) ∧
    (i ≠ .init → i ≠ .clrerr → t.core.ERR_CMD = s.core.ERR_CMD ∧ t.core.ERR_ACC = s.core.ERR_ACC) ∧
    (∀ j : Fin 16, t.core.readOff (Reg.msg j).off = s.core.readOff (Reg.msg j).off)

/-- 60_exceptions.md R281: INIT, UPDATE and FINAL while busy; CLRERR is accepted. Each is a CMD write that responds OKAY. -/
def Obligations.BusyDropsTheCommand : Prop :=
  ∀ (s : State) (j : Job) (n : Nat), s.core.JOB = some j → n ≤ 63 →
    (∀ w ∈ [encode .init, encode .update, encode (.final n)],
      access (.write 0x00 4 w) s = (.okay, .next { s with core := { s.core with ERR_BUSY := true } })) ∧
    (∃ t, access (.write 0x00 4 (encode .clrerr)) s = (.okay, .next t) ∧
      t.core.ERR_BUSY = false ∧ t.core.JOB = some j)

/-- 60_exceptions.md R282: UPDATE and FINAL past the busy check while FINALIZED = 1. -/
def Obligations.WriteAfterFinalizeIsDropped : Prop :=
  ∀ (s : State) (n : Nat), s.core.JOB = none → s.core.FINALIZED = true → n ≤ 63 →
    ∀ w ∈ [encode .update, encode (.final n)],
      access (.write 0x00 4 w) s = (.okay, .next { s with core := { s.core with ERR_WAF := true } })

/-- 60_exceptions.md R284: at most one error per transaction, in the order ACC, CMD, BUSY (skipped for CLRERR), WAF; the engine's
completion raises nothing. -/
def Obligations.OneErrorByPriority : Prop :=
  (∀ (a : Access) (s t : State) (e e' : Err), (access a s).2 = .next t →
    s.core.errBit e = false → t.core.errBit e = true → s.core.errBit e' = false → t.core.errBit e' = true → e = e') ∧
  (∀ (off : Offset) (n : Nat) (w : Word) (s : State), (n ≠ 4 ∨ off.toNat % 4 ≠ 0) →
    (access (.write off n w) s).2 = .next { s with core := { s.core with ERR_ACC := true } }) ∧
  (∀ (w : Word) (s : State), legal w = false →
    (access (.write 0x00 4 w) s).2 = .next { s with core := { s.core with ERR_CMD := true } }) ∧
  (∀ (w : Word) (s : State) (j : Job), legal w = true → w ≠ encode .clrerr → s.core.JOB = some j →
    (access (.write 0x00 4 w) s).2 = .next { s with core := { s.core with ERR_BUSY := true } }) ∧
  (∀ (w : Word) (s : State), legal w = true → w ≠ encode .clrerr → w ≠ encode .init →
    s.core.JOB = none → s.core.FINALIZED = true →
    (access (.write 0x00 4 w) s).2 = .next { s with core := { s.core with ERR_WAF := true } }) ∧
  (∀ s : State, ∃ t, (access (.write 0x00 4 (encode .clrerr)) s).2 = .next t ∧ ∀ e, t.core.errBit e = false) ∧
  (∀ (s : State) (e : Err), s.complete.core.errBit e = s.core.errBit e)

/-- 60_exceptions.md R280 to R283: each error is raised by its own cause and by nothing else, at the level of the step: it is the
host's turn and the line at the head is that cause. -/
def Obligations.ErrorsRaisedOnlyByTheirCause : Prop :=
  ∀ (s t : State) (e : Err), step s = .next t → s.core.errBit e = false → t.core.errBit e = true →
    s.hostMoves = true ∧ ∃ l rest, s.host.inputs = .line l :: rest ∧
      match e with
      | .acc  => l.access.size ≠ 4 ∨ l.access.off.toNat % 4 ≠ 0
      | .cmd  => ∃ w, l.access = .write 0x00 4 w ∧ legal w = false
      | .busy => s.core.busy = true ∧ ∃ i, l.access.command = some i ∧ i ≠ .clrerr
      | .waf  => s.core.busy = false ∧ s.core.FINALIZED = true ∧
          (l.access.command = some .update ∨ ∃ n, l.access.command = some (.final n))

/-- 60_exceptions.md R286: an error bit falls only by CLRERR, INIT or reset. -/
def Obligations.ErrorBitsFallOnlyByClrerrInitReset : Prop :=
  ∀ (s t : State) (e : Err), step s = .next t → s.core.errBit e = true → t.core.errBit e = false →
    s.NextCommand .clrerr ∨ s.NextCommand .init ∨ s.NextReset

/-- 60_exceptions.md R286: "Error bits never block later commands": a command does the same whatever error bits stand, but that an
error bit it does not clear stays. -/
def Obligations.ErrorBitsNeverBlockCommands : Prop :=
  ∀ (i : Instr) (s : State) (e : Err),
    exec i (s.raise e) = exec i s ∨ exec i (s.raise e) = andThen (exec i s) (State.raise e)

/-! ## Host transactions -/

/-- 45_commands.md R260: the host read step at every offset and size. -/
def Obligations.ReadStepByOffset : Prop :=
  ∀ s : State,
    (∀ (off : Offset) (n : Nat), (n ≠ 4 ∨ off.toNat % 4 ≠ 0) →
      access (.read off n) s = (.error, .next { s with core := { s.core with ERR_ACC := true } })) ∧
    access (.read 0x00 4) s = (.data 0, .next s) ∧
    access (.read 0x04 4) s = (.data s.core.status, .next s) ∧
    access (.read 0x08 4) s = (.data (s.core.LEN.extractLsb' 0 32), .next s) ∧
    access (.read 0x0C 4) s = (.data (s.core.LEN.extractLsb' 32 32), .next s) ∧
    (∀ i : Fin 4, access (.read (BitVec.ofNat 7 (0x10 + 4 * i.val)) 4) s = (.data 0, .next s)) ∧
    (∀ k : Fin 8, access (.read (BitVec.ofNat 7 (0x20 + 4 * k.val)) 4) s =
      (.data (if s.core.DVALID then s.core.H[k] else 0), .next s)) ∧
    (∀ j : Fin 16, access (.read (BitVec.ofNat 7 (0x40 + 4 * j.val)) 4) s = (.data s.core.MSG[j], .next s))

/-- 45_commands.md R261: the host write step at every offset and size. -/
def Obligations.WriteStepByOffset : Prop :=
  ∀ (s : State) (v : Word),
    (∀ (off : Offset) (n : Nat), (n ≠ 4 ∨ off.toNat % 4 ≠ 0) →
      access (.write off n v) s = (.error, .next { s with core := { s.core with ERR_ACC := true } })) ∧
    access (.write 0x00 4 v) s = (.okay, command v s) ∧
    (∀ j : Fin 16, access (.write (BitVec.ofNat 7 (0x40 + 4 * j.val)) 4 v) s =
      (.okay, .next { s with core := { s.core with MSG := s.core.MSG.set j v } })) ∧
    (∀ off : Offset, off.toNat % 4 = 0 → 0 < off.toNat → off.toNat < 0x40 →
      access (.write off 4 v) s = (.okay, .next s))

/-- 60_exceptions.md R283 with 20_memory.md R71: a transaction of illegal size or alignment, read or write, at any offset. -/
def Obligations.IllegalAccessOnlySetsErrAcc : Prop :=
  ∀ (a : Access) (s : State), (a.size ≠ 4 ∨ a.off.toNat % 4 ≠ 0) →
    access a s = (.error, .next { s with core := { s.core with ERR_ACC := true } })

/-- 10_state.md R42: the bits of STATUS, and a write to it is ignored. -/
def Obligations.StatusFields : Prop :=
  ∀ s : State,
    s.core.status.getLsbD 0 = s.core.JOB.isSome ∧ s.core.status.getLsbD 1 = s.core.DVALID ∧
    s.core.status.getLsbD 2 = s.core.FINALIZED ∧ s.core.status.getLsbD 3 = s.core.ERR_WAF ∧
    s.core.status.getLsbD 4 = s.core.ERR_CMD ∧ s.core.status.getLsbD 5 = s.core.ERR_BUSY ∧
    s.core.status.getLsbD 6 = s.core.ERR_ACC ∧ (∀ i, 7 ≤ i → s.core.status.getLsbD i = false) ∧
    (State.reset.core.status = 0) ∧
    ∀ v : Word, access (.write 0x04 4 v) s = (.okay, .next s)

/-- 10_state.md R46: a MSG write is read back, at any time, and changes nothing else: no other offset and no in-flight command. -/
def Obligations.MsgWriteReadsBackAndFrames : Prop :=
  ∀ (s : State) (j : Fin 16) (v : Word), ∃ t,
    access (.write (Reg.msg j).off 4 v) s = (.okay, .next t) ∧
    access (.read (Reg.msg j).off 4) t = (.data v, .next t) ∧
    (∀ off : Offset, off.toNat % 4 = 0 → off ≠ (Reg.msg j).off → t.core.readOff off = s.core.readOff off) ∧
    t.core.JOB = s.core.JOB ∧ t.core.H = s.core.H ∧ t.pipe = s.pipe ∧ t.host = s.host ∧
    t.resetHold = s.resetHold ∧ t.turns = s.turns ∧ (∀ e, t.core.errBit e = s.core.errBit e)

/-- 20_memory.md R77: every transaction that presents no word to CMD is idempotent: performed again it answers the same and
changes nothing; no legal read changes anything. -/
def Obligations.OnlyCommandsAreNotIdempotent : Prop :=
  (∀ (a : Access) (s t : State), (∀ v, a ≠ .write 0x00 4 v) → (access a s).2 = .next t →
    access a t = ((access a s).1, .next t)) ∧
  (∀ (off : Offset) (s : State), off.toNat % 4 = 0 → (access (.read off 4) s).2 = .next s)

/-- 30_encoding.md R111, LOADBLK: sixteen MSG writes load a block. -/
def Obligations.SixteenWritesLoadABlock : Prop :=
  ∀ (b : Block) (s : State),
    msgIndices.foldl (fun o j => chain o fun u => (access (.write (Reg.msg j).off 4 b[j]) u).2) (.next s) =
      .next { s with core := { s.core with MSG := b } }

/-- 20_memory.md R70: `off = addr - BASE_ADDR`, whatever BASE_ADDR is, and nothing outside the window. -/
def Obligations.WindowAddresses : Prop :=
  (∀ off : Offset, windowOffset (Config.baseAddr + off.toNat) = some off) ∧
  (∀ (q : BusRequest) (s : State), (q.addr < Config.baseAddr ∨ Config.baseAddr + 0x7F < q.addr) → s.present q = s)

/-! ## The engine -/

/-- 45_commands.md R250: the completion of a job, enabled exactly when JOB is some job, from a snapshot and an H and LEN that no
transaction changes meanwhile. When the enabled engine takes its step is not R250's: `State.engineDue`, in `engineDue = false` for no
job and in the clause that the step is the completion, is the model's schedule (log 1, DESIGN CHOICE; log 2, DEDUCED). -/
def Obligations.CompletionStep : Prop :=
  (∀ (s : State) (j : Job), s.core.JOB = some j →
    s.complete.core = { s.core with
      H      := j.blocks.foldl compress s.core.H
      LEN    := j.newlen
      DVALID := s.core.DVALID || decide (j.kind = .final)
      JOB    := none } ∧
    s.complete.host = s.host ∧ s.complete.resetHold = s.resetHold) ∧
  (∀ s : State, s.core.JOB = none → s.complete = s ∧ s.engineDue = false) ∧
  (∀ s : State, s.resetHold = 0 → s.engineDue = true → step s = .next s.complete) ∧
  (∀ (a : Access) (s t : State) (j : Job), s.core.JOB = some j → (access a s).2 = .next t →
    t.core.JOB = some j ∧ t.core.H = s.core.H ∧ t.core.LEN = s.core.LEN)

/-- 45_commands.md R251: a job in flight is completed, or abandoned by reset, within a number of steps the state bounds. The bound is
the model's choice of a schedule (log 1). -/
def Obligations.JobEndsInBoundedSteps : Prop :=
  ∀ (s : State) (j : Job), s.core.JOB = some j →
    ∃ k t, k ≤ s.resetHold + s.turns.wait + 1 ∧ core.run k s = .next t ∧ t.core.JOB = none

/-- 20_memory.md R83 and 10_state.md R34: no transaction disturbs a job in flight, and its completion gives the same H. -/
def Obligations.TransactionsDoNotDisturbTheJob : Prop :=
  ∀ (a : Access) (s t : State) (j : Job), s.core.JOB = some j → (access a s).2 = .next t →
    t.core.JOB = some j ∧ t.core.H = s.core.H ∧ t.core.LEN = s.core.LEN ∧ t.core.DVALID = s.core.DVALID ∧
    t.core.FINALIZED = s.core.FINALIZED ∧ t.turns = s.turns ∧ t.complete.core.H = s.complete.core.H ∧
    t.complete.core.LEN = s.complete.core.LEN ∧ t.complete.core.DVALID = s.complete.core.DVALID

/-- 44_digest.md R221 with 10_state.md R34: a transaction that presents no command leaves the same record whether the engine
completes before it or after it. -/
def Obligations.EngineCommutesWithPlainTransactions : Prop :=
  ∀ (a : Access) (s t u : State), (∀ v, a ≠ .write 0x00 4 v) →
    (access a s).2 = .next t → (access a s.complete).2 = .next u → t.complete.core = u.core

/-- 43_compression.md R197 and 42_schedule.md R174: the cycle-level engine, 66 steps for each block (load, 64 rounds, accumulate), ends in the state of the
atomic completion. The leftover hidden state and the steps that write BLK, fill the window and end the job are
the model's choice (log 9, log 20, log 24). -/
def Obligations.CycleEngineRefinesCompletion : Prop :=
  ∀ (s : State) (j : Job), s.core.JOB = some j → (j.blocks.length = 1 ∨ j.blocks.length = 2) →
    CycleEngine.run (66 * j.blocks.length) (CycleEngine.start s) =
      { core := s.complete.core, pipe := s.complete.pipe, loaded := false }

/-! ## The datapath -/

/-- 40_word_ops.md R130: the sum modulo 2^32, in any order and association, which is the spec's own inference in R130
("Equivalently a chain of two-input wrapping adders in any order and association"). -/
def Obligations.Add32AnyOrder : Prop :=
  (∀ xs : List Word, (add32 xs).toNat = (xs.map BitVec.toNat).sum % 2 ^ 32) ∧
  (∀ xs ys : List Word, xs.Perm ys → add32 xs = add32 ys) ∧
  (∀ (x y : Word) (zs : List Word), add32 (x :: y :: zs) = add32 (add32 [x, y] :: zs)) ∧
  (∀ x y : Word, add32 [x, y] = x + y)

/-- 40_word_ops.md R131, R132: "bit i of the result is bit (i + n) mod 32 of x", and `shr` is the floor of x / 2^n. R131 itself is for
1 <= n <= 31: the first clause for n = 0 and for n of 32 or more, and `rotr(x, 0) = x`, rest on R131's derived sentence about those
corners and on log 11 (DEDUCED). -/
def Obligations.RotateAndShiftBits : Prop :=
  (∀ (x : Word) (n i : Nat), i < 32 → (rotr x n).getLsbD i = x.getLsbD ((i + n) % 32)) ∧
  (∀ x : Word, rotr x 0 = x) ∧
  (∀ (x : Word) (n : Nat), (shr x n).toNat = x.toNat / 2 ^ n)

/-- 43_compression.md R199, R201: choose and majority, bit by bit. -/
def Obligations.ChooseAndMajorityBits : Prop :=
  (∀ (e f g : Word) (i : Nat), i < 32 → (ch e f g).getLsbD i = if e.getLsbD i then f.getLsbD i else g.getLsbD i) ∧
  (∀ (a b c : Word) (i : Nat), i < 32 → ((maj a b c).getLsbD i = true ↔
    2 ≤ (a.getLsbD i).toNat + (b.getLsbD i).toNat + (c.getLsbD i).toNat))

/-- 42_schedule.md R172, R173 and 43_compression.md R198, R200: the four sigma functions, bit by bit. -/
def Obligations.SigmaBits : Prop :=
  ∀ (x : Word) (i : Nat), i < 32 →
    (sigma0 x).getLsbD i =
      ((x.getLsbD ((i + 7) % 32) ^^ x.getLsbD ((i + 18) % 32)) ^^ (decide (i + 3 < 32) && x.getLsbD (i + 3))) ∧
    (sigma1 x).getLsbD i =
      ((x.getLsbD ((i + 17) % 32) ^^ x.getLsbD ((i + 19) % 32)) ^^ (decide (i + 10 < 32) && x.getLsbD (i + 10))) ∧
    (bigSigma0 x).getLsbD i =
      ((x.getLsbD ((i + 2) % 32) ^^ x.getLsbD ((i + 13) % 32)) ^^ x.getLsbD ((i + 22) % 32)) ∧
    (bigSigma1 x).getLsbD i =
      ((x.getLsbD ((i + 6) % 32) ^^ x.getLsbD ((i + 11) % 32)) ^^ x.getLsbD ((i + 25) % 32))

/-- 42_schedule.md R170, R171: 64 words, the first sixteen the block's big-endian words, the rest by the recurrence. -/
def Obligations.ScheduleWords : Prop :=
  (∀ b : Block, (schedule b).length = 64 ∧ (∀ j : Fin 16, (schedule b).getD j.val 0 = b[j]) ∧
    ∀ i, 16 ≤ i → i ≤ 63 → (schedule b).getD i 0 =
      add32 [(schedule b).getD (i - 16) 0, sigma0 ((schedule b).getD (i - 15) 0),
             (schedule b).getD (i - 7) 0, sigma1 ((schedule b).getD (i - 2) 0)]) ∧
  (∀ (B : List Byte) (j : Nat), B.length = 64 → j < 16 → (schedule (packBlock B)).getD j 0 =
    be32 (B.getD (4 * j) 0) (B.getD (4 * j + 1) 0) (B.getD (4 * j + 2) 0) (B.getD (4 * j + 3) 0))

/-- 42_schedule.md R174: the 16-word window gives every round the word of the 64-word schedule. -/
def Obligations.WindowGivesTheSchedule : Prop :=
  ∀ (b : Block) (i : Nat), i < 64 → (windowStep i (windowAt i b)).1 = (schedule b).getD i 0

/-- 43_compression.md R190 to R196, R202: one block, round by round. -/
def Obligations.CompressByRounds : Prop :=
  ∀ (H : HashState) (b : Block), ∃ v : Nat → Vars,
    v 0 = ⟨H[0], H[1], H[2], H[3], H[4], H[5], H[6], H[7]⟩ ∧
    (∀ i, i < 64 →
      let o := v i
      let t1 := add32 [o.h, bigSigma1 o.e, ch o.e o.f o.g, kTable.getD i 0, (schedule b).getD i 0]
      let t2 := add32 [bigSigma0 o.a, maj o.a o.b o.c]
      v (i + 1) = { a := add32 [t1, t2], b := o.a, c := o.b, d := o.c,
                    e := add32 [o.d, t1], f := o.e, g := o.f, h := o.g }) ∧
    compress H b =
      #v[add32 [H[0], (v 64).a], add32 [H[1], (v 64).b], add32 [H[2], (v 64).c], add32 [H[3], (v 64).d],
         add32 [H[4], (v 64).e], add32 [H[5], (v 64).f], add32 [H[6], (v 64).g], add32 [H[7], (v 64).h]]

/-! ## Padding and the digest -/

/-- 41_padding.md R150, R151: the message, 0x80, zeros, the length; the padded length is the smallest multiple of 64 that is at
least L + 9, and it has floor((L + 8) / 64) + 1 blocks. The value of z and the block count are the spec's own inferences in R150 and
R151 ("which fixes z as above", "So the padded message has ... blocks"). -/
def Obligations.PaddedMessageForm : Prop :=
  ∀ m : List Byte,
    (∃ z : Nat, ((z : Int) = (55 - (m.length : Int)) % 64) ∧
      pad m = m ++ [0x80] ++ List.replicate z 0 ++ be64 (BitVec.ofNat 64 (8 * m.length))) ∧
    (pad m).length % 64 = 0 ∧ m.length + 9 ≤ (pad m).length ∧ (pad m).length < m.length + 9 + 64 ∧
    (blocksOf (pad m)).length = (m.length + 8) / 64 + 1

/-- 41_padding.md R153: the padding unit's blocks, unpacked, are T; one block for n <= 55 and two for n >= 56. -/
def Obligations.PadtailBlocks : Prop :=
  ∀ (M : Block) (n : Nat) (ltot : Word64), n ≤ 63 →
    (∃ z : Nat, ((z : Int) = (55 - (n : Int)) % 64) ∧
      (padtail M n ltot).flatMap blockBytes =
        (blockBytes M).take n ++ [0x80] ++ List.replicate z 0 ++ be64 (8 * ltot)) ∧
    (n ≤ 55 → (padtail M n ltot).length = 1) ∧ (56 ≤ n → (padtail M n ltot).length = 2)

/-- 41_padding.md R153: "bytes n..63 of M are ignored". -/
def Obligations.PadtailIgnoresStaleBytes : Prop :=
  ∀ (M M' : Block) (n : Nat) (ltot : Word64),
    (∀ i, i < n → (blockBytes M).getD i 0 = (blockBytes M').getD i 0) → padtail M n ltot = padtail M' n ltot

/-- 30_encoding.md R106: the length field is words 14 and 15 of the last padded block. -/
def Obligations.LengthFieldWords : Prop :=
  ∀ (M : Block) (n : Nat) (ltot : Word64), n ≤ 63 →
    ∃ b, (padtail M n ltot).getLast? = some b ∧
      b[14] = (8 * ltot).extractLsb' 32 32 ∧ b[15] = (8 * ltot).extractLsb' 0 32

/-- 41_padding.md R154: the blocks of the command sequence are exactly the blocks of `pad(m)`. -/
def Obligations.PaddingUnitAgreesWithPad : Prop :=
  ∀ m : List Byte,
    blocksOf (pad m) =
      blocksOf m ++ padtail (packBlock (lastBytes m)) (m.length % 64) (BitVec.ofNat 64 m.length)

/-- 30_encoding.md R105, 44_digest.md R222: DIGESTk reads H[k] once the digest is valid; byte 4k + m of the digest is H[k] bits 31 - 8m to 24 - 8m, and it has 32 bytes. -/
def Obligations.SerializeLayout : Prop :=
  (∀ H : HashState, (serialize H).length = 32 ∧
    ∀ (k : Fin 8) (m : Fin 4), (serialize H).getD (4 * k.val + m.val) 0 = H[k].extractLsb' (24 - 8 * m.val) 8) ∧
  (∀ c : CoreState, c.DVALID = true → (∀ k : Fin 8, c.readReg (.digest k) = c.H[k]) ∧ c.digestBytes = serialize c.H)

/-- 44_digest.md R225: from a fresh record the command sequence of a message ends with DVALID = 1, no error, and DIGEST0 to DIGEST7
equal to `sha256(m)`; reset and an accepted INIT leave a fresh record. In `hashMessage` each job is completed right after its command
and MSG is loaded at once, zeros past the last bytes (log 25); the transactions and the engine's turns between are other statements. -/
def Obligations.CommandSequenceComputesSha256 : Prop :=
  (∀ (m : List Byte) (s : State), s.core.Fresh → s.core.errorFree = true →
    ∃ t, hashMessage m s = .next t ∧ t.core.DVALID = true ∧ t.core.busy = false ∧ t.core.errorFree = true ∧
      t.core.LEN = BitVec.ofNat 64 m.length ∧ t.core.digestBytes = sha256 m) ∧
  State.reset.core.Fresh ∧
  (∀ s : State, s.core.JOB = none → ∃ t, exec .init s = .next t ∧ t.core.Fresh ∧ t.core.errorFree = true)

/-! ## Whole-machine rules -/

/-- 45_commands.md R244, R260, R261 with 30_encoding.md R110: when the next line, a WR or a WRX, writes a legal word to CMD, the step
runs that command and moves the host on; an illegal word raises ERR_CMD. Third clause: on the host's turn every line, of whatever form,
has exactly the effect of its transaction (`access`), noted, and then the host's own reaction, which a WR, RD, RDX or WRX line does not
have (fourth clause). The trace and the awaiting bit that `noted` records, and the reaction to POLL and EXPECT, are the model's own
(log 4, log 12, log 21, log 22). The last clause is about `State.withFetchWord`, a DESIGN CHOICE (log 5): the very next step runs the
word it stores. -/
def Obligations.StepRunsTheDecodedCommand : Prop :=
  (∀ (s : State) (l : Line) (w : Word) (rest : List Input) (i : Instr), s.hostMoves = true →
    s.host.inputs = .line l :: rest → l.access = .write 0x00 4 w → decode w = .ok i →
    step s = andThen (exec i (s.takeInput rest)) (noted (.write 0x00 4 w) .okay (s.takeInput rest))) ∧
  (∀ (s : State) (l : Line) (w : Word) (rest : List Input), s.hostMoves = true →
    s.host.inputs = .line l :: rest → l.access = .write 0x00 4 w → legal w = false →
    step s = .next (noted (.write 0x00 4 w) .okay (s.takeInput rest) ((s.takeInput rest).raise .cmd))) ∧
  (∀ (s : State) (l : Line) (rest : List Input), s.hostMoves = true → s.host.inputs = .line l :: rest →
    (s.takeInput rest).core = s.core ∧ (s.takeInput rest).host.inputs = rest ∧
    ∃ u, (access l.access (s.takeInput rest)).2 = .next u ∧
      step s = .next (afterLine l (s.takeInput rest)
        (noted l.access (access l.access (s.takeInput rest)).1 (s.takeInput rest) u))) ∧
  (∀ (l : Line) (before s : State), (∀ r mask value, l ≠ .poll r mask value) → (∀ r imm, l ≠ .expect r imm) →
    afterLine l before s = s) ∧
  (∀ (s : State) (w : Nat) (i : Instr), w < 2 ^ 32 → decodeTableWord 32 w = some i →
    step (s.withFetchWord 32 w) =
      andThen (exec i { s with resetHold := 0 }) (noted (.write 0x00 4 (BitVec.ofNat 32 w)) .okay { s with resetHold := 0 }))

/-- 30_encoding.md R110: POLL repeats its read until `(result and mask) == value`; EXPECT fails the program exactly when the result
differs; neither changes the core. Where a line that repeats stands among the inputs is the model's choice (log 12, log 21). -/
def Obligations.PollRepeatsAndExpectCompares : Prop :=
  ∀ (s : State) (r : Reg) (mask value : Word) (rest : List Input), s.hostMoves = true →
    (s.host.inputs = .line (.poll r mask value) :: rest →
      ∃ t, step s = .next t ∧ t.core = s.core ∧
        t.host.trace = (.read r.off 4, .data (s.core.readReg r)) :: s.host.trace ∧
        t.host.inputs = if s.core.readReg r &&& mask = value then rest else .line (.poll r mask value) :: rest) ∧
    (s.host.inputs = .line (.expect r value) :: rest →
      ∃ t, step s = .next t ∧ t.core = s.core ∧ t.host.inputs = rest ∧
        t.host.trace = (.read r.off 4, .data (s.core.readReg r)) :: s.host.trace ∧
        t.host.expectFailed = (s.host.expectFailed || decide (s.core.readReg r ≠ value)))

/-- 70_reset_and_hazards.md R342: the run's bookkeeping never loses a job in flight, so an ended run is idle. That an ended run has
no input left, a queued reset included, is the model's choice (log 23, DESIGN CHOICE; R342 names lines only), and so are the awaiting
bit (log 4) and what clears it (log 19). -/
def Obligations.EndedRunIsIdle : Prop :=
  (∀ s t : State, (s.core.busy = true → s.host.awaiting = true) → step s = .next t →
    t.core.busy = true → t.host.awaiting = true) ∧
  (∀ s : State, (s.core.busy = true → s.host.awaiting = true) → s.runEnded = true →
    s.host.inputs = [] ∧ s.core.JOB = none)

/-- Nothing stops the machine: every step answers a next state. This is log 16 (DEDUCED), with log 6 for the steps of a held reset;
60_exceptions.md R285 and R289 are what it is deduced from and do not say it. -/
def Obligations.EveryStepRuns : Prop := ∀ s : State, Runs (step s)

/-- 10_state.md R49, the spec's own inference: the invariants hold at reset. -/
def Obligations.ResetKeepsR49 : Prop := State.reset.core.Inv

/-- 10_state.md R49, the spec's own inference ("Invariants every reachable state keeps"): every step keeps them, and the block
counts and the new length of an UPDATE that `JobOk` adds to them. -/
def Obligations.StepKeepsR49 : Prop :=
  ∀ s t : State, s.core.Inv → step s = .next t → t.core.Inv

/-- 10_state.md R38: with R49, a finalized record with no job in flight has a valid digest, and every step keeps that. -/
def Obligations.FinalizedIdleHasDigest : Prop :=
  ∀ s t : State, s.core.Inv → (s.core.FINALIZED = true → s.core.JOB = none → s.core.DVALID = true) →
    step s = .next t → t.core.FINALIZED = true → t.core.JOB = none → t.core.DVALID = true

/-- 10_state.md R37, R48: ROUND stays within 0 to 64, at the machine's steps and at the cycle-level engine's. What ROUND holds after
the atomic completion is the model's choice (log 9), and after reset too (log 3). -/
def Obligations.RoundCounterStaysInRange : Prop :=
  (∀ s t : State, s.pipe.ROUND.toNat ≤ 64 → step s = .next t → t.pipe.ROUND.toNat ≤ 64) ∧
  (∀ c : CycleEngine, c.pipe.ROUND.toNat ≤ 64 → c.next.pipe.ROUND.toNat ≤ 64)

/-- 44_digest.md R224, 20_memory.md R80: between the completion of FINAL and the next INIT or reset the digest does not change. -/
def Obligations.DigestStableUntilInitOrReset : Prop :=
  ∀ s t : State, s.core.Inv → s.core.DVALID = true → step s = .next t →
    (t.core.DVALID = true ∧ (∀ k : Fin 8, t.core.readReg (.digest k) = s.core.readReg (.digest k))) ∨
    s.NextCommand .init ∨ s.NextReset

/-- 10_state.md R38: when each status flag rises and falls. -/
def Obligations.StatusFlagTransitions : Prop :=
  ∀ s t : State, step s = .next t →
    (s.core.busy = false → t.core.busy = true → s.NextCommand .update ∨ ∃ n, s.NextCommand (.final n)) ∧
    (s.core.busy = true → t.core.busy = false → (s.resetHold = 0 ∧ s.engineDue = true) ∨ s.NextReset) ∧
    (s.core.DVALID = false → t.core.DVALID = true → ∃ j, s.core.JOB = some j ∧ j.kind = .final ∧ t = s.complete) ∧
    (s.core.DVALID = true → t.core.DVALID = false → s.NextCommand .init ∨ s.NextReset) ∧
    (s.core.FINALIZED = false → t.core.FINALIZED = true → ∃ n, s.NextCommand (.final n)) ∧
    (s.core.FINALIZED = true → t.core.FINALIZED = false → s.NextCommand .init ∨ s.NextReset)

/-- 10_state.md R31, R35: the only writers of H and LEN, and what each writes. UPDATE adds 64 to LEN and FINAL n adds n, both at
completion. -/
def Obligations.WritersOfHAndLen : Prop :=
  (∀ s t : State, step s = .next t →
    (t.core.H = s.core.H ∧ t.core.LEN = s.core.LEN) ∨
    ((s.NextReset ∨ s.NextCommand .init) ∧ t.core.H = IV ∧ t.core.LEN = 0) ∨
    ∃ j, s.core.JOB = some j ∧ t = s.complete ∧
      t.core.H = j.blocks.foldl compress s.core.H ∧ t.core.LEN = j.newlen) ∧
  (∀ (s : State) (n : Nat), s.core.JOB = none → s.core.FINALIZED = false → n ≤ 63 →
    (∃ t, exec .update s = .next t ∧ t.core.LEN = s.core.LEN ∧ t.complete.core.LEN = s.core.LEN + 64) ∧
    (∃ t, exec (.final n) s = .next t ∧ t.core.LEN = s.core.LEN ∧
      t.complete.core.LEN = s.core.LEN + BitVec.ofNat 64 n))

/-- 10_state.md R34: only a MSG write and reset write MSG; no command and no engine step does. -/
def Obligations.WritersOfMsg : Prop :=
  ∀ s t : State, step s = .next t →
    t.core.MSG = s.core.MSG ∨ s.NextReset ∨
    s.hostMoves = true ∧ ∃ l rest off n v j, s.host.inputs = .line l :: rest ∧ l.access = .write off n v ∧
      accessLegal off n = true ∧ Reg.ofOffset off = .msg j ∧ t.core.MSG = s.core.MSG.set j v

/-- 10_state.md R50: the hidden state reaches nothing a host can see: not the pipeline, and while DVALID = 0 not H (with a job in flight or
without), and of JOB no more than whether there is one. -/
def Obligations.HiddenStateIsUnobservable : Prop :=
  (∀ (s t u : State) (p : Pipeline), step s = .next t → step { s with pipe := p } = .next u →
    u.core = t.core ∧ u.host = t.host ∧ u.resetHold = t.resetHold ∧ u.turns = t.turns) ∧
  (∀ (c : CoreState) (H : HashState) (r : Reg), c.DVALID = false → { c with H := H }.readReg r = c.readReg r) ∧
  (∀ (c : CoreState) (H : HashState) (j j' : Job) (r : Reg), c.DVALID = false → c.JOB = some j →
    { c with H := H, JOB := some j' }.readReg r = c.readReg r)

/-- 70_reset_and_hazards.md R340, R341: how long a command keeps the engine busy, whatever the message, H and LEN. -/
def Obligations.BusyCyclesOfCommands : Prop :=
  ∀ (i : Instr) (s t : State), i.WellFormed → s.core.JOB = none → exec i s = .next t →
    (∀ j, t.core.JOB = some j → j.busyCycles = busyCycles i) ∧
    (i = .init ∨ i = .clrerr → t.core.JOB = none)
end

