-- ==== Sys2Proof/Laws/Decode.lean ====
section
/-! SUPPORT. What the fields of a command word say, and the cases of the decoder (30_encoding.md section 1). -/
namespace Sys2Proof

/-- A word is put together from its three fields (R100). -/
theorem formatC_fields (w : Word) : formatC (rsvField w) (nbytesField w) (opField w) = w := by
  apply BitVec.eq_of_getLsbD_eq
  intro i hi
  change (rsvField w ++ nbytesField w ++ opField w : BitVec (22 + 6 + 4)).getLsbD i = _
  simp only [BitVec.getLsbD_append, rsvField, nbytesField, opField, BitVec.getLsbD_extractLsb']
  split
  · simp [*]
  · split
    · rw [show 4 + (i - 4) = i by omega]; simp; omega
    · rw [show 10 + (i - 4 - 6) = i by omega]; simp; omega

/-- The fields as numbers. -/
theorem fields_toNat (w : Word) :
    (opField w).toNat = w.toNat % 16 ∧ (nbytesField w).toNat = w.toNat / 16 % 64 ∧
      (rsvField w).toNat = w.toNat / 1024 := by
  refine ⟨?_, ?_, ?_⟩
  · simp [opField]
  · simp [nbytesField, Nat.shiftRight_eq_div_pow]
  · simp [rsvField, Nat.shiftRight_eq_div_pow]; omega

theorem withoutOperand_ok {w : Word} {i j : Instr} (h : withoutOperand w i = .ok j) :
    nbytesField w = 0 ∧ j = i := by
  unfold withoutOperand at h
  split at h
  next hn => exact ⟨hn, by simpa using h.symm⟩
  next => simp at h

/-- What a word is that decodes to a command (R101). -/
theorem decode_cases {w : Word} {i : Instr} (h : decode w = .ok i) :
    rsvField w = 0 ∧
      ((opField w = 1 ∧ nbytesField w = 0 ∧ i = .init) ∨ (opField w = 2 ∧ nbytesField w = 0 ∧ i = .update) ∨
        (opField w = 3 ∧ i = .final (nbytesField w).toNat) ∨ (opField w = 4 ∧ nbytesField w = 0 ∧ i = .clrerr)) := by
  unfold decode at h
  split at h
  next hr =>
    refine ⟨hr, ?_⟩
    split at h
    next ho => exact .inl ⟨BitVec.eq_of_toNat_eq ho, withoutOperand_ok h⟩
    next ho => exact .inr (.inl ⟨BitVec.eq_of_toNat_eq ho, withoutOperand_ok h⟩)
    next ho => exact .inr (.inr (.inl ⟨BitVec.eq_of_toNat_eq ho, by simpa using h.symm⟩))
    next ho => exact .inr (.inr (.inr ⟨BitVec.eq_of_toNat_eq ho, withoutOperand_ok h⟩))
    next => simp at h
  next => simp at h

end Sys2Proof
end

