-- ==== Sys2Proof/Laws/State.lean ====
section
/-! SUPPORT. One lemma per field per update of State, so that no proof unfolds a record update. -/
namespace Sys2Proof.Machine

/-! ## Updates of the record -/

@[simp] theorem CoreState.raise_H (e : Err) (c : CoreState) : (c.raise e).H = c.H := by cases e <;> rfl

@[simp] theorem CoreState.raise_MSG (e : Err) (c : CoreState) : (c.raise e).MSG = c.MSG := by cases e <;> rfl

@[simp] theorem CoreState.raise_LEN (e : Err) (c : CoreState) : (c.raise e).LEN = c.LEN := by cases e <;> rfl

@[simp] theorem CoreState.raise_DVALID (e : Err) (c : CoreState) :
    (c.raise e).DVALID = c.DVALID := by cases e <;> rfl

@[simp] theorem CoreState.raise_FINALIZED (e : Err) (c : CoreState) :
    (c.raise e).FINALIZED = c.FINALIZED := by cases e <;> rfl

@[simp] theorem CoreState.raise_JOB (e : Err) (c : CoreState) : (c.raise e).JOB = c.JOB := by cases e <;> rfl

@[simp] theorem CoreState.raise_errBit (e e' : Err) (c : CoreState) :
    (c.raise e).errBit e' = (decide (e = e') || c.errBit e') := by
  cases e <;> cases e' <;> rfl

@[simp] theorem CoreState.raise_busy (e : Err) (c : CoreState) : (c.raise e).busy = c.busy := by cases e <;> rfl

@[simp] theorem CoreState.clearErrors_H (c : CoreState) : c.clearErrors.H = c.H := rfl

@[simp] theorem CoreState.clearErrors_MSG (c : CoreState) : c.clearErrors.MSG = c.MSG := rfl

@[simp] theorem CoreState.clearErrors_LEN (c : CoreState) : c.clearErrors.LEN = c.LEN := rfl

@[simp] theorem CoreState.clearErrors_DVALID (c : CoreState) :
    c.clearErrors.DVALID = c.DVALID := rfl

@[simp] theorem CoreState.clearErrors_FINALIZED (c : CoreState) :
    c.clearErrors.FINALIZED = c.FINALIZED := rfl

@[simp] theorem CoreState.clearErrors_JOB (c : CoreState) : c.clearErrors.JOB = c.JOB := rfl

@[simp] theorem CoreState.clearErrors_errBit (c : CoreState) (e : Err) :
    c.clearErrors.errBit e = false := by
  cases e <;> rfl

@[simp] theorem CoreState.clearErrors_busy (c : CoreState) : c.clearErrors.busy = c.busy := rfl

@[simp] theorem CoreState.newMessage_H (c : CoreState) : c.newMessage.H = IV := rfl

@[simp] theorem CoreState.newMessage_LEN (c : CoreState) : c.newMessage.LEN = 0 := rfl

@[simp] theorem CoreState.newMessage_DVALID (c : CoreState) : c.newMessage.DVALID = false := rfl

@[simp] theorem CoreState.newMessage_FINALIZED (c : CoreState) :
    c.newMessage.FINALIZED = false := rfl

@[simp] theorem CoreState.newMessage_MSG (c : CoreState) : c.newMessage.MSG = c.MSG := rfl

@[simp] theorem CoreState.newMessage_JOB (c : CoreState) : c.newMessage.JOB = c.JOB := rfl

@[simp] theorem CoreState.newMessage_errBit (c : CoreState) (e : Err) :
    c.newMessage.errBit e = false := by
  cases e <;> rfl

@[simp] theorem CoreState.complete_H (j : Job) (c : CoreState) :
    (c.complete j).H = compressAll c.H j.blocks := rfl

@[simp] theorem CoreState.complete_MSG (j : Job) (c : CoreState) : (c.complete j).MSG = c.MSG := rfl

@[simp] theorem CoreState.complete_LEN (j : Job) (c : CoreState) :
    (c.complete j).LEN = j.newlen := rfl

@[simp] theorem CoreState.complete_DVALID (j : Job) (c : CoreState) :
    (c.complete j).DVALID = if j.kind = .final then true else c.DVALID := rfl

@[simp] theorem CoreState.complete_FINALIZED (j : Job) (c : CoreState) :
    (c.complete j).FINALIZED = c.FINALIZED := rfl

@[simp] theorem CoreState.complete_JOB (j : Job) (c : CoreState) : (c.complete j).JOB = none := rfl

@[simp] theorem CoreState.complete_errBit (j : Job) (c : CoreState) (e : Err) :
    (c.complete j).errBit e = c.errBit e := by
  cases e <;> rfl

/-! ## Updates of the state -/

@[simp] theorem State.raise_core (e : Err) (s : State) : (s.raise e).core = s.core.raise e := rfl

@[simp] theorem State.raise_pipe (e : Err) (s : State) : (s.raise e).pipe = s.pipe := rfl

@[simp] theorem State.raise_host (e : Err) (s : State) : (s.raise e).host = s.host := rfl

@[simp] theorem State.raise_resetHold (e : Err) (s : State) :
    (s.raise e).resetHold = s.resetHold := rfl

@[simp] theorem State.raise_turns (e : Err) (s : State) : (s.raise e).turns = s.turns := rfl

@[simp] theorem State.clearErrors_core (s : State) : s.clearErrors.core = s.core.clearErrors := rfl

@[simp] theorem State.clearErrors_pipe (s : State) : s.clearErrors.pipe = s.pipe := rfl

@[simp] theorem State.clearErrors_host (s : State) : s.clearErrors.host = s.host := rfl

@[simp] theorem State.clearErrors_resetHold (s : State) :
    s.clearErrors.resetHold = s.resetHold := rfl

@[simp] theorem State.clearErrors_turns (s : State) : s.clearErrors.turns = s.turns := rfl

@[simp] theorem State.setMsg_core (j : Fin 16) (v : Word) (s : State) :
    (s.setMsg j v).core = { s.core with MSG := s.core.MSG.set j v } := rfl

@[simp] theorem State.setMsg_pipe (j : Fin 16) (v : Word) (s : State) :
    (s.setMsg j v).pipe = s.pipe := rfl

@[simp] theorem State.setMsg_host (j : Fin 16) (v : Word) (s : State) :
    (s.setMsg j v).host = s.host := rfl

@[simp] theorem State.setMsg_resetHold (j : Fin 16) (v : Word) (s : State) :
    (s.setMsg j v).resetHold = s.resetHold := rfl

@[simp] theorem State.setMsg_turns (j : Fin 16) (v : Word) (s : State) :
    (s.setMsg j v).turns = s.turns := rfl

@[simp] theorem State.startJob_core (j : Job) (s : State) :
    (s.startJob j).core = { s.core with JOB := some j } := rfl

@[simp] theorem State.startJob_pipe (j : Job) (s : State) : (s.startJob j).pipe = s.pipe := rfl

@[simp] theorem State.startJob_host (j : Job) (s : State) : (s.startJob j).host = s.host := rfl

@[simp] theorem State.startJob_resetHold (j : Job) (s : State) :
    (s.startJob j).resetHold = s.resetHold := rfl

@[simp] theorem State.startJob_turns (j : Job) (s : State) :
    (s.startJob j).turns = s.turns.draw := rfl

@[simp] theorem State.setFinalized_core (s : State) :
    s.setFinalized.core = { s.core with FINALIZED := true } := rfl

@[simp] theorem State.setFinalized_pipe (s : State) : s.setFinalized.pipe = s.pipe := rfl

@[simp] theorem State.setFinalized_host (s : State) : s.setFinalized.host = s.host := rfl

@[simp] theorem State.setFinalized_resetHold (s : State) :
    s.setFinalized.resetHold = s.resetHold := rfl

@[simp] theorem State.setFinalized_turns (s : State) : s.setFinalized.turns = s.turns := rfl

@[simp] theorem State.applyReset_core (hold : Nat) (s : State) :
    (s.applyReset hold).core = CoreState.reset := rfl

@[simp] theorem State.applyReset_pipe (hold : Nat) (s : State) :
    (s.applyReset hold).pipe = Pipeline.reset := rfl

@[simp] theorem State.applyReset_host (hold : Nat) (s : State) :
    (s.applyReset hold).host = s.host := rfl

@[simp] theorem State.applyReset_resetHold (hold : Nat) (s : State) :
    (s.applyReset hold).resetHold = hold := rfl

@[simp] theorem State.applyReset_turns (hold : Nat) (s : State) :
    (s.applyReset hold).turns = { s.turns with wait := 0 } := rfl

@[simp] theorem State.holdReset_core (s : State) : s.holdReset.core = s.core := rfl

@[simp] theorem State.holdReset_pipe (s : State) : s.holdReset.pipe = s.pipe := rfl

@[simp] theorem State.holdReset_host (s : State) : s.holdReset.host = s.host := rfl

@[simp] theorem State.holdReset_resetHold (s : State) :
    s.holdReset.resetHold = s.resetHold - 1 := rfl

@[simp] theorem State.holdReset_turns (s : State) : s.holdReset.turns = s.turns := rfl

@[simp] theorem State.takeInput_core (rest : List Input) (s : State) :
    (s.takeInput rest).core = s.core := rfl

@[simp] theorem State.takeInput_pipe (rest : List Input) (s : State) :
    (s.takeInput rest).pipe = s.pipe := rfl

@[simp] theorem State.takeInput_host (rest : List Input) (s : State) :
    (s.takeInput rest).host = { s.host with inputs := rest } := rfl

@[simp] theorem State.takeInput_resetHold (rest : List Input) (s : State) :
    (s.takeInput rest).resetHold = s.resetHold := rfl

@[simp] theorem State.takeInput_turns (rest : List Input) (s : State) :
    (s.takeInput rest).turns = { s.turns with wait := s.turns.wait - 1 } := rfl

@[simp] theorem State.pushLine_core (l : Line) (s : State) : (s.pushLine l).core = s.core := rfl

@[simp] theorem State.pushLine_pipe (l : Line) (s : State) : (s.pushLine l).pipe = s.pipe := rfl

@[simp] theorem State.pushLine_host (l : Line) (s : State) :
    (s.pushLine l).host = { s.host with inputs := .line l :: s.host.inputs } := rfl

@[simp] theorem State.pushLine_resetHold (l : Line) (s : State) :
    (s.pushLine l).resetHold = s.resetHold := rfl

@[simp] theorem State.pushLine_turns (l : Line) (s : State) : (s.pushLine l).turns = s.turns := rfl

@[simp] theorem State.record_core (a : Access) (r : Response) (s : State) :
    (s.record a r).core = s.core := rfl

@[simp] theorem State.record_pipe (a : Access) (r : Response) (s : State) :
    (s.record a r).pipe = s.pipe := rfl

@[simp] theorem State.record_host (a : Access) (r : Response) (s : State) :
    (s.record a r).host = { s.host with trace := (a, r) :: s.host.trace } := rfl

@[simp] theorem State.record_resetHold (a : Access) (r : Response) (s : State) :
    (s.record a r).resetHold = s.resetHold := rfl

@[simp] theorem State.record_turns (a : Access) (r : Response) (s : State) :
    (s.record a r).turns = s.turns := rfl

@[simp] theorem State.putFirst_core (i : Input) (s : State) : (s.putFirst i).core = s.core := rfl

@[simp] theorem State.putFirst_pipe (i : Input) (s : State) : (s.putFirst i).pipe = s.pipe := rfl

@[simp] theorem State.putFirst_host (i : Input) (s : State) :
    (s.putFirst i).host = { s.host with inputs := i :: s.host.inputs } := rfl

@[simp] theorem State.putFirst_resetHold (i : Input) (s : State) :
    (s.putFirst i).resetHold = 0 := rfl

@[simp] theorem State.putFirst_turns (i : Input) (s : State) :
    (s.putFirst i).turns = { s.turns with wait := s.turns.wait + 1 } := rfl

/-! ## The host's bookkeeping changes nothing of the core -/

@[simp] theorem noted_core (a : Access) (r : Response) (before after : State) :
    (noted a r before after).core = after.core := rfl

@[simp] theorem noted_pipe (a : Access) (r : Response) (before after : State) :
    (noted a r before after).pipe = after.pipe := rfl

@[simp] theorem noted_resetHold (a : Access) (r : Response) (before after : State) :
    (noted a r before after).resetHold = after.resetHold := rfl

@[simp] theorem noted_turns (a : Access) (r : Response) (before after : State) :
    (noted a r before after).turns = after.turns := rfl

@[simp] theorem afterLine_core (l : Line) (before s : State) :
    (afterLine l before s).core = s.core := by
  cases l <;> simp only [afterLine] <;> (try split) <;> rfl

@[simp] theorem afterLine_pipe (l : Line) (before s : State) :
    (afterLine l before s).pipe = s.pipe := by
  cases l <;> simp only [afterLine] <;> (try split) <;> rfl

@[simp] theorem afterLine_resetHold (l : Line) (before s : State) :
    (afterLine l before s).resetHold = s.resetHold := by
  cases l <;> simp only [afterLine] <;> (try split) <;> rfl

@[simp] theorem afterLine_turns (l : Line) (before s : State) :
    (afterLine l before s).turns = s.turns := by
  cases l <;> simp only [afterLine] <;> (try split) <;> rfl

/-! ## Completion -/

theorem State.complete_of_none (s : State) (h : s.core.JOB = none) : s.complete = s := by
  simp [State.complete, h]

theorem State.complete_core (s : State) (j : Job) (h : s.core.JOB = some j) : s.complete.core = s.core.complete j := by
  simp [State.complete, h]

@[simp] theorem State.complete_host (s : State) : s.complete.host = s.host := by
  unfold State.complete; split <;> rfl

@[simp] theorem State.complete_resetHold (s : State) : s.complete.resetHold = s.resetHold := by
  unfold State.complete; split <;> rfl

@[simp] theorem State.complete_MSG (s : State) : s.complete.core.MSG = s.core.MSG := by
  unfold State.complete; split <;> rfl

@[simp] theorem State.complete_FINALIZED (s : State) : s.complete.core.FINALIZED = s.core.FINALIZED := by
  unfold State.complete; split <;> rfl

/-! ## The bus around the core -/

@[simp] theorem Response.onBus_data (v : Word) : (Response.data v).onBus = some (.data v) := rfl
@[simp] theorem Response.onBus_okay : Response.okay.onBus = some .okay := rfl

/-- A BUS with error responses carries every response. -/
theorem Response.onBus_eq_some (r : Response) (h : Config.bus.errorResponses = true) : r.onBus = some r := by
  cases r <;> simp [Response.onBus, h]

/-- A BUS that keeps the order delivers exactly what was issued. -/
theorem BusDelivers_iff_eq (issued arrived : List BusRequest) (h : Config.bus.keepsOrder = true) :
    BusDelivers issued arrived ↔ arrived = issued :=
  ⟨fun d => d.2 h, fun e => ⟨e ▸ .refl _, fun _ => e⟩⟩

/-- Presenting requests queues the lines of those addressed to the core, in their order, and changes nothing else. -/
theorem State.presentAll_eq (qs : List BusRequest) (s : State) :
    s.presentAll qs =
      { s with host := { s.host with inputs := s.host.inputs ++ qs.filterMap fun q => q.line.map Input.line } } := by
  induction qs generalizing s with
  | nil => simp [State.presentAll]
  | cons q qs ih =>
    rw [State.presentAll, List.foldl_cons, ← State.presentAll, ih]
    unfold State.present
    cases h : q.line <;> simp [h]

end Sys2Proof.Machine
end

