-- ==== Sys2Proof/Laws/Ops.lean ====
section
/-! SUPPORT. One lemma per shared operation: word and byte operations, vectors, checks, the padding and schedule functions. -/
namespace Sys2Proof.Machine

/-! ## Words, bytes and vectors -/

@[simp] theorem add32_toNat (xs : List Word) : (add32 xs).toNat = (xs.map BitVec.toNat).sum % 2 ^ 32 := by
  simp [add32]

@[simp] theorem hashState_getElem (f : Fin 8 → Word) (k : Fin 8) : (hashState f)[k] = f k := by
  fin_cases k <;> rfl

@[simp] theorem blockOf_getElem (f : Fin 16 → Word) (j : Fin 16) : (blockOf f)[j] = f j := by
  fin_cases j <;> rfl

@[simp] theorem bytesBe32_length (x : Word) : (bytesBe32 x).length = 4 := rfl

@[simp] theorem be64_length (v : Word64) : (be64 v).length = 8 := rfl

theorem flatMap_bytesBe32_length (ws : List Word) : (ws.flatMap bytesBe32).length = 4 * ws.length := by
  induction ws with
  | nil => rfl
  | cons w ws ih => simp [ih]; omega

@[simp] theorem blockBytes_length (b : Block) : (blockBytes b).length = 64 := by
  simp [blockBytes]

@[simp] theorem bytesBe32_be32 (b0 b1 b2 b3 : Byte) : bytesBe32 (be32 b0 b1 b2 b3) = [b0, b1, b2, b3] := by
  simp only [bytesBe32, List.cons.injEq, and_true]
  have bit (k : Nat) : (be32 b0 b1 b2 b3).getLsbD k = (b0 ++ b1 ++ b2 ++ b3 : BitVec (8 + 8 + 8 + 8)).getLsbD k := rfl
  refine ⟨?_, ?_, ?_, ?_⟩ <;>
    (ext i hi; rw [BitVec.getElem_extractLsb', bit]; simp only [BitVec.getLsbD_append])
  · rw [if_neg (by omega), if_neg (by omega), if_neg (by omega), BitVec.getLsbD_eq_getElem (by omega)]
    congr 1; omega
  · rw [if_neg (by omega), if_neg (by omega), if_pos (by omega), BitVec.getLsbD_eq_getElem (by omega)]
    congr 1; omega
  · rw [if_neg (by omega), if_pos (by omega), BitVec.getLsbD_eq_getElem (by omega)]
    congr 1; omega
  · rw [if_pos (by omega), BitVec.getLsbD_eq_getElem (by omega)]
    congr 1; omega

/-! ## Outcomes -/

@[simp] theorem andThen_next (s : State) (f : State → State) : andThen (.next s) f = .next (f s) := rfl

theorem andThen_eq_next {o : Host.Outcome State Fault Refusal} {f : State → State} {t : State}
    (h : andThen o f = .next t) : ∃ s, o = .next s ∧ t = f s := by
  cases o with
  | next s => exact ⟨s, rfl, by simpa using h.symm⟩
  | fault r => exact nomatch r
  | refused r => simp [andThen] at h

/-! ## The checks of a command -/

theorem busy_iff (c : CoreState) : c.busy = true ↔ ∃ j, c.JOB = some j := by
  simp [CoreState.busy, Option.isSome_iff_exists]

theorem busy_false_iff (c : CoreState) : c.busy = false ↔ c.JOB = none := by
  simp [CoreState.busy]

theorem whenIdle_of_busy (s : State) (o : Host.Outcome State Fault Refusal) (h : s.core.busy = true) :
    whenIdle s o = .next (s.raise .busy) := by
  simp [whenIdle, h]

theorem whenIdle_of_idle (s : State) (o : Host.Outcome State Fault Refusal) (h : s.core.busy = false) :
    whenIdle s o = o := by
  simp [whenIdle, h]

theorem whenOpen_of_finalized (s : State) (o : Host.Outcome State Fault Refusal) (h : s.core.FINALIZED = true) :
    whenOpen s o = .next (s.raise .waf) := by
  simp [whenOpen, h]

theorem whenOpen_of_open (s : State) (o : Host.Outcome State Fault Refusal) (h : s.core.FINALIZED = false) :
    whenOpen s o = o := by
  simp [whenOpen, h]

/-! ## The register window -/

/-- Every register's offset selects it (20_memory.md R72). -/
@[simp] theorem Reg.ofOffset_off (r : Reg) : Reg.ofOffset r.off = r := by
  cases r with
  | reserved i => fin_cases i <;> rfl
  | digest k => fin_cases k <;> rfl
  | msg j => fin_cases j <;> rfl
  | cmd => rfl
  | status => rfl
  | lenLo => rfl
  | lenHi => rfl

/-- Every register's offset is aligned. -/
@[simp] theorem accessLegal_off (r : Reg) : accessLegal r.off 4 = true := by
  cases r with
  | reserved i => fin_cases i <;> rfl
  | digest k => fin_cases k <;> rfl
  | msg j => fin_cases j <;> rfl
  | cmd => rfl
  | status => rfl
  | lenLo => rfl
  | lenHi => rfl

/-- An aligned offset is its register's offset. -/
theorem Reg.off_ofOffset (off : Offset) (h : off.toNat % 4 = 0) : (Reg.ofOffset off).off = off := by
  have all : ∀ o : Offset, o.toNat % 4 = 0 → (Reg.ofOffset o).off = o := by decide
  exact all off h

theorem accessLegal_iff (off : Offset) (n : Nat) : accessLegal off n = true ↔ n = 4 ∧ off.toNat % 4 = 0 := by
  simp [accessLegal]

/-! ## Tables, schedule and padding -/

theorem kTable_length : kTable.length = 64 := rfl

/-- Row `i` of the table of R40 holds K[i], K[i + 16], K[i + 32] and K[i + 48]. -/
theorem kTable_row (i : Fin 16) :
    kRows[i.val]? = some ⟨K i.val, K (i.val + 16), K (i.val + 32), K (i.val + 48)⟩ := by
  revert i; decide

theorem extendSchedule_length (n : Nat) (ws : List Word) : (extendSchedule n ws).length = ws.length + n := by
  induction n generalizing ws with
  | zero => rfl
  | succ n ih => simp [extendSchedule, ih]; omega

theorem schedule_length (b : Block) : (schedule b).length = 64 := by
  simp [schedule, extendSchedule_length]

/-- The words already computed stay at the front. -/
theorem extendSchedule_eq_append (n : Nat) (ws : List Word) : ∃ more, extendSchedule n ws = ws ++ more := by
  induction n generalizing ws with
  | zero => exact ⟨[], by simp [extendSchedule]⟩
  | succ n ih =>
    obtain ⟨more, h⟩ := ih (ws ++ [nextWord ws])
    exact ⟨nextWord ws :: more, by simp [extendSchedule, h]⟩

/-- R150's `z` as the spec writes it. -/
theorem padZeros_eq (L : Nat) : ((padZeros L : Nat) : Int) = (55 - (L : Int)) % 64 := by
  unfold padZeros; omega

theorem padZeros_lt (L : Nat) : padZeros L < 64 := by
  unfold padZeros; omega

theorem padSuffix_length (L : Nat) (bits : Word64) : (padSuffix L bits).length = padZeros L + 9 := by
  simp [padSuffix]

end Sys2Proof.Machine
end

