-- ==== Sys2Proof/Laws/PerInstr.lean ====
section
/-! SUPPORT. A statement about every command, one lemma per constructor: the word of a well-formed command is legal (30_encoding.md R103). -/
namespace Sys2Proof.Laws.EncodesLegalWord

/-- The encoder of a well-formed command gives a legal word. -/
def Statement (i : Instr) : Prop := i.WellFormed → legal (encode i) = true

theorem init : Statement .init := fun _ => by decide

theorem update : Statement .update := fun _ => by decide

theorem final (nbytes : Nat) : Statement (.final nbytes) := by
  intro h
  have hn : nbytes ≤ 63 := by simpa [Instr.WellFormed, Instr.wellFormed] using h
  have all : ∀ k : Fin 64, legal (encode (.final k.val)) = true := by decide
  exact all ⟨nbytes, by omega⟩

theorem clrerr : Statement .clrerr := fun _ => by decide

end Sys2Proof.Laws.EncodesLegalWord
end

