-- ==== Sys2Proof/Laws/Step.lean ====
section
/-! SUPPORT. What a command, a transaction and a step can do, said once: the inversion lemmas the proofs cite. -/
namespace Sys2Proof.Machine

/-- INIT raises ERR_BUSY or starts a new message (45_commands.md R240). -/
theorem execInit_cases {s t : State} (h : execInit s = .next t) :
    (s.core.busy = true ∧ t = s.raise .busy) ∨
    (s.core.busy = false ∧ t = { s with core := s.core.newMessage }) := by
  cases hb : s.core.busy with
  | true => rw [execInit, whenIdle_of_busy _ _ hb] at h; exact .inl ⟨rfl, by simpa using h.symm⟩
  | false => rw [execInit, whenIdle_of_idle _ _ hb] at h; exact .inr ⟨rfl, by simpa using h.symm⟩

/-- UPDATE is refused busy, refused finalized, or starts its job (R241). -/
theorem execUpdate_cases {s t : State} (h : execUpdate s = .next t) :
    (s.core.busy = true ∧ t = s.raise .busy) ∨
    (s.core.busy = false ∧ s.core.FINALIZED = true ∧ t = s.raise .waf) ∨
    (s.core.busy = false ∧ s.core.FINALIZED = false ∧ t = s.startJob (updateJob s.core)) := by
  cases hb : s.core.busy with
  | true => rw [execUpdate, whenIdle_of_busy _ _ hb] at h; exact .inl ⟨rfl, by simpa using h.symm⟩
  | false =>
    rw [execUpdate, whenIdle_of_idle _ _ hb] at h
    cases hf : s.core.FINALIZED with
    | true => rw [whenOpen_of_finalized _ _ hf] at h; exact .inr (.inl ⟨rfl, rfl, by simpa using h.symm⟩)
    | false => rw [whenOpen_of_open _ _ hf] at h; exact .inr (.inr ⟨rfl, rfl, by simpa using h.symm⟩)

/-- FINAL n is refused busy, refused finalized, or starts its job and sets FINALIZED (R242). -/
theorem execFinal_cases {n : Nat} {s t : State} (h : execFinal n s = .next t) :
    (s.core.busy = true ∧ t = s.raise .busy) ∨
    (s.core.busy = false ∧ s.core.FINALIZED = true ∧ t = s.raise .waf) ∨
    (s.core.busy = false ∧ s.core.FINALIZED = false ∧ t = (s.startJob (finalJob n s.core)).setFinalized) := by
  cases hb : s.core.busy with
  | true => rw [execFinal, whenIdle_of_busy _ _ hb] at h; exact .inl ⟨rfl, by simpa using h.symm⟩
  | false =>
    rw [execFinal, whenIdle_of_idle _ _ hb] at h
    cases hf : s.core.FINALIZED with
    | true => rw [whenOpen_of_finalized _ _ hf] at h; exact .inr (.inl ⟨rfl, rfl, by simpa using h.symm⟩)
    | false => rw [whenOpen_of_open _ _ hf] at h; exact .inr (.inr ⟨rfl, rfl, by simpa using h.symm⟩)

/-- CLRERR clears the four error bits (R243). -/
theorem execClrerr_cases {s t : State} (h : execClrerr s = .next t) : t = s.clearErrors := by
  simpa [execClrerr] using h.symm

/-- Every command answers a next state (60_exceptions.md R285). -/
theorem exec_runs (i : Instr) (s : State) : ∃ t, exec i s = .next t := by
  cases i <;> simp only [exec, execInit, execUpdate, execFinal, execClrerr, whenIdle, whenOpen] <;>
    (repeat' split) <;> exact ⟨_, rfl⟩

/-- Every transaction answers a next state (45_commands.md R260, R261). -/
theorem access_runs (a : Access) (s : State) : ∃ t, (access a s).2 = .next t := by
  cases a with
  | read off n => exact ⟨_, rfl⟩
  | write off n v =>
    simp only [access, memWrite]
    split
    · dsimp only
      cases Reg.ofOffset off with
      | cmd =>
        show ∃ t, command v s = .next t
        unfold command
        split
        · exact ⟨_, rfl⟩
        · exact exec_runs _ s
      | _ => exact ⟨_, rfl⟩
    · exact ⟨_, rfl⟩

/-- A transaction is refused for its form, reads, presents a word to CMD, writes MSG, or is ignored (R260, R261). -/
theorem access_cases {a : Access} {s t : State} (h : (access a s).2 = .next t) :
    (accessLegal a.off a.size = false ∧ (access a s).1 = .error ∧ t = s.raise .acc) ∨
    (accessLegal a.off a.size = true ∧ (t = s ∨
      (∃ off n w, a = .write off n w ∧ Reg.ofOffset off = .cmd ∧ command w s = .next t) ∨
      (∃ off n v j, a = .write off n v ∧ Reg.ofOffset off = .msg j ∧ t = s.setMsg j v))) := by
  cases a with
  | read off n =>
    simp only [access, memRead, Access.off, Access.size] at h ⊢
    split at h
    next hl => exact .inr ⟨hl, .inl (by simpa using h.symm)⟩
    next hl => exact .inl ⟨by simpa using hl, by simp [hl], by simpa using h.symm⟩
  | write off n v =>
    simp only [access, memWrite, Access.off, Access.size] at h ⊢
    split at h
    next hl =>
      refine .inr ⟨hl, ?_⟩
      dsimp only at h
      revert h
      cases hr : Reg.ofOffset off with
      | cmd => exact fun h => .inr (.inl ⟨off, n, v, rfl, hr, h⟩)
      | msg j => exact fun h => .inr (.inr ⟨off, n, v, j, rfl, hr, by simpa [writeReg] using h.symm⟩)
      | status => exact fun h => .inl (by simpa [writeReg] using h.symm)
      | lenLo => exact fun h => .inl (by simpa [writeReg] using h.symm)
      | lenHi => exact fun h => .inl (by simpa [writeReg] using h.symm)
      | reserved i => exact fun h => .inl (by simpa [writeReg] using h.symm)
      | digest k => exact fun h => .inl (by simpa [writeReg] using h.symm)
    next hl => exact .inl ⟨by simpa using hl, by simp [hl], by simpa using h.symm⟩

/-- A line performs its transaction, and nothing else of the core changes. -/
theorem performLine_cases {l : Line} {s t : State} (h : performLine l s = .next t) :
    ∃ u, (access l.access s).2 = .next u ∧
      t.core = u.core ∧ t.pipe = u.pipe ∧ t.resetHold = u.resetHold ∧ t.turns = u.turns := by
  obtain ⟨v, hv, rfl⟩ := andThen_eq_next h
  obtain ⟨u, hu, rfl⟩ := andThen_eq_next hv
  exact ⟨u, hu, by simp⟩

/-- One step holds reset, completes the job, idles, performs a line, or applies reset. -/
theorem step_cases {s t : State} (h : step s = .next t) :
    (s.resetHold ≠ 0 ∧ t = s.holdReset) ∨
    (s.resetHold = 0 ∧ s.engineDue = true ∧ t = s.complete) ∨
    (s.hostMoves = true ∧ s.host.inputs = [] ∧ t = s) ∨
    (s.hostMoves = true ∧ ∃ l rest, s.host.inputs = .line l :: rest ∧ performLine l (s.takeInput rest) = .next t) ∨
    (s.hostMoves = true ∧ ∃ hold rest, s.host.inputs = .reset hold :: rest ∧ t = (s.takeInput rest).applyReset hold) := by
  unfold step at h
  split at h
  next hh => exact .inl ⟨hh, by simpa using h.symm⟩
  next hh =>
    have h0 : s.resetHold = 0 := by simpa using hh
    split at h
    next hd => exact .inr (.inl ⟨h0, hd, by simpa using h.symm⟩)
    next hd =>
      have hm : s.hostMoves = true := by simp [State.hostMoves, h0, hd]
      unfold hostTurn at h
      split at h
      next hi => exact .inr (.inr (.inl ⟨hm, hi, by simpa using h.symm⟩))
      next i rest hi =>
        cases i with
        | line l => exact .inr (.inr (.inr (.inl ⟨hm, l, rest, hi, h⟩)))
        | reset hold =>
          exact .inr (.inr (.inr (.inr ⟨hm, hold, rest, hi, by simpa [performInput] using h.symm⟩)))

/-- On the host's turn a line at the head is performed. -/
theorem step_of_line {s : State} {l : Line} {rest : List Input} (h : s.hostMoves = true)
    (hi : s.host.inputs = .line l :: rest) : step s = performLine l (s.takeInput rest) := by
  have hm : s.resetHold = 0 ∧ s.engineDue = false := by simpa [State.hostMoves] using h
  simp [step, hm, hostTurn, hi, performInput]

/-- Everything a step from `s` to `t` can do to the record, with its cause. -/
inductive StepEffect (s t : State) : Prop where
  /-- Nothing: reset held, nothing to do, a read, or an ignored write. -/
  | unchanged (core : t.core = s.core)
  /-- The engine completes the job (45_commands.md R250). -/
  | completed (j : Job) (job : s.core.JOB = some j) (due : s.resetHold = 0 ∧ s.engineDue = true)
      (eq : t = s.complete) (core : t.core = s.core.complete j)
  /-- The reset event (70_reset_and_hazards.md R320). -/
  | reset (next : s.NextReset) (core : t.core = CoreState.reset)
  /-- A transaction of illegal form (60_exceptions.md R283). -/
  | illegalAccess (l : Line) (rest : List Input) (moves : s.hostMoves = true) (next : s.host.inputs = .line l :: rest)
      (form : accessLegal l.access.off l.access.size = false) (core : t.core = s.core.raise .acc)
  /-- A MSG write (10_state.md R46). -/
  | msgWrite (l : Line) (rest : List Input) (moves : s.hostMoves = true) (next : s.host.inputs = .line l :: rest)
      (off : Offset) (n : Nat) (v : Word) (j : Fin 16) (write : l.access = .write off n v)
      (form : accessLegal off n = true) (reg : Reg.ofOffset off = .msg j)
      (core : t.core = { s.core with MSG := s.core.MSG.set j v })
  /-- A CMD write of an illegal word (R280). -/
  | illegalWord (l : Line) (rest : List Input) (moves : s.hostMoves = true) (next : s.host.inputs = .line l :: rest)
      (w : Word) (write : l.access = .write 0x00 4 w) (e : IllegalWord) (word : decode w = .error e)
      (core : t.core = s.core.raise .cmd)
  /-- A command, in the words of its meaning (R240 to R243). -/
  | command (i : Instr) (l : Line) (rest : List Input) (moves : s.hostMoves = true)
      (next : s.host.inputs = .line l :: rest) (present : l.access.command = some i)
      (effect : ∃ u, exec i (s.takeInput rest) = .next u ∧ t.core = u.core)

/-- What a line's transaction does to the record. -/
theorem step_effect {s t : State} (h : step s = .next t) : StepEffect s t := by
  rcases step_cases h with ⟨_, rfl⟩ | ⟨h0, hd, rfl⟩ | ⟨_, _, rfl⟩ | ⟨hm, l, rest, hi, hl⟩ | ⟨hm, hold, rest, hi, rfl⟩
  · exact .unchanged rfl
  · have hb : s.core.busy = true := by
      simp only [State.engineDue, Bool.and_eq_true] at hd; exact hd.1
    obtain ⟨j, hj⟩ := (busy_iff _).1 hb
    exact .completed j hj ⟨h0, hd⟩ rfl (State.complete_core s j hj)
  · exact .unchanged rfl
  · obtain ⟨u, hu, hc, -⟩ := performLine_cases hl
    rcases access_cases hu with ⟨hf, -, rfl⟩ | ⟨hf, rfl | ⟨off, n, w, ha, hr, hcmd⟩ | ⟨off, n, v, j, ha, hr, rfl⟩⟩
    · exact .illegalAccess l rest hm hi hf (by simpa using hc)
    · exact .unchanged (by simpa using hc)
    · have hf' : accessLegal off n = true := by simpa [ha, Access.off, Access.size] using hf
      obtain ⟨rfl, h4⟩ := (accessLegal_iff off n).1 hf'
      have h0 : off = 0x00 := by rw [← Reg.off_ofOffset off h4, hr]; rfl
      subst h0
      unfold command at hcmd
      cases hw : decode w with
      | error e =>
        rw [hw] at hcmd
        obtain rfl : u = (s.takeInput rest).raise .cmd := by simpa using hcmd.symm
        exact .illegalWord l rest hm hi w ha e hw (by simpa using hc)
      | ok i =>
        rw [hw] at hcmd
        exact .command i l rest hm hi (by simp only [ha, Access.command, hf', hr, hw]; rfl) ⟨u, hcmd, hc⟩
    · exact .msgWrite l rest hm hi off n v j ha (by simpa [ha, Access.off, Access.size] using hf) hr (by simpa using hc)
  · exact .reset ⟨hm, hold, rest, hi⟩ (by simp)

end Sys2Proof.Machine
end

