-- ==== Sys2Proof/Tests/Slice0.lean ====
section
/-! SUPPORT. The model's own tests. Expected values come from spec/95_test_vectors.md (V<n>) or from the rule named; then one
witness for the hypotheses of each statement. -/
namespace Sys2Proof.Tests
open Sys2Proof.Machine

/-! ## Small states -/

/-- A value of the next state. -/
def got {α : Type} (o : Host.Outcome State Fault Refusal) (f : State → α) : Option α :=
  match o with
  | .next t => some (f t)
  | _       => none

/-- The reset state with inputs to come. -/
def withInputs (is : List Input) : State := { State.reset with host := { HostSide.reset with inputs := is } }

/-- A record with an UPDATE of a zero block in flight. -/
def updating : CoreState :=
  { CoreState.reset with JOB := some { kind := .update, blocks := [Vector.replicate 16 0], newlen := 64 } }

/-- A record with a FINAL 0 in flight. -/
def finalizing : CoreState :=
  { CoreState.reset with
    FINALIZED := true
    JOB := some { kind := .final, blocks := padtail (Vector.replicate 16 0) 0 0, newlen := 0 } }

/-- A finished message. -/
def finished : CoreState := { CoreState.reset with FINALIZED := true, DVALID := true }

/-- The reset state with another record, a wait of `wait`, and inputs to come. -/
def at_ (c : CoreState) (wait : Nat) (is : List Input) : State :=
  { withInputs is with core := c, turns := { EngineTurns.reset with wait := wait } }

/-- MSG0 = 0x61626300 ("abc"). -/
def abcBlock : Block := blockOf fun j => if j = 0 then 0x61626300 else 0

/-- A block of 64 bytes 0x61. -/
def aBlock : Block := Vector.replicate 16 0x61616161

/-! ## Well-formedness -/

theorem test_wf_final63 : (Instr.final 63).WellFormed := by decide
theorem test_wf_refuses_final64 : ¬ (Instr.final 64).WellFormed := by decide
theorem test_wf_access4 : (Access.read 0x04 4).WellFormed := by decide
theorem test_wf_refuses_access3 : ¬ (Access.write 0x00 3 0).WellFormed := by decide
theorem test_wf_refuses_access0 : ¬ (Access.read 0x00 0).WellFormed := by decide

/-! ## Decoding: words written out from R100, R101 (RSV, NBYTES, OP) -/

theorem test_decode_init : decode 0b0000000000000000000000_000000_0001#32 = .ok .init := by decide
theorem test_decode_update : decode 0b0000000000000000000000_000000_0010#32 = .ok .update := by decide
theorem test_decode_final0 : decode 0b0000000000000000000000_000000_0011#32 = .ok (.final 0) := by decide
theorem test_decode_final56 : decode 0b0000000000000000000000_111000_0011#32 = .ok (.final 56) := by decide
theorem test_decode_clrerr : decode 0b0000000000000000000000_000000_0100#32 = .ok .clrerr := by decide
/-- V17: the words that are not legal. -/
theorem test_illegal_words :
    [0x0, 0x5, 0xF, 0x11, 0x12, 0x14, 0x403, 0x80000001, 0xFFFFFFFF].all (fun w => legal w == false) = true := by decide
/-- V17: the words that are. -/
theorem test_legal_words :
    [0x1, 0x2, 0x3, 0x4, 0x13, 0x23, 0x33, 0x383, 0x3F3].all (fun w => legal w) = true := by decide
theorem test_encode_final3 : encode (.final 3) = 0x00000033 := by decide
theorem test_table_word : decodeTableWord 32 0x3F3 = some (.final 63) := by decide
theorem test_table_word_illegal : decodeTableWord 32 0x403 = none := by decide

/-! ## The datapath: V10 to V16 -/

/-- R40: K[i] is the first 32 bits of the fractional part of the cube root of the i-th prime; the primes are those below 312. -/
theorem test_K_from_cube_roots :
    (kTable.zip ((List.range 312).filter fun p => (List.range p).all fun d => d < 2 || p % d != 0).tail.tail).all (fun kp =>
      (List.range 7).any fun n =>
        (n * 2 ^ 32 + kp.1.toNat) ^ 3 ≤ kp.2 * 2 ^ 96 && kp.2 * 2 ^ 96 < (n * 2 ^ 32 + kp.1.toNat + 1) ^ 3) = true := by
  decide +kernel
/-- R41: IV[k] is the first 32 bits of the fractional part of the square root of the k-th prime. -/
theorem test_IV_from_square_roots :
    (IV.toList.zip [2, 3, 5, 7, 11, 13, 17, 19]).all (fun kp =>
      (List.range 5).any fun n =>
        (n * 2 ^ 32 + kp.1.toNat) ^ 2 ≤ kp.2 * 2 ^ 64 && kp.2 * 2 ^ 64 < (n * 2 ^ 32 + kp.1.toNat + 1) ^ 2) = true := by
  decide +kernel
theorem test_add32_wrap : add32 [0xffffffff, 0xffffffff, 0xffffffff, 0xffffffff, 0xffffffff] = 0xfffffffb := by decide
theorem test_rotr : rotr 0x12345678 8 = 0x78123456 := by decide
theorem test_shr : shr 0xffffffff 10 = 0x003fffff := by decide
theorem test_sigma0 : sigma0 0x12345678 = 0xe7fce6ee := by decide
theorem test_sigma1 : sigma1 0x12345678 = 0xa1f78649 := by decide
theorem test_bigSigma0 : bigSigma0 0x12345678 = 0x66146474 := by decide
theorem test_bigSigma1 : bigSigma1 0x12345678 = 0x3561abda := by decide
theorem test_ch : ch 0xff00ff00 0x12345678 0x9abcdef0 = 0x12bc56f0 := by decide
theorem test_maj : maj 0xf0f0f0f0 0xff00ff00 0xcccccccc = 0xfcc0fcc0 := by decide
/-- V13: the last word of the schedule of the "abc" block. -/
theorem test_schedule_abc :
    (schedule (abcBlock.set 0 0x61626380 |>.set 15 0x18)).getD 63 0 = 0x12b1edeb := by decide +kernel
/-- V14: round 0 of "abc". -/
theorem test_round0_abc : (Vars.load IV).round (K 0) 0x61626380 =
    ⟨0x5d6aebcd, 0x6a09e667, 0xbb67ae85, 0x3c6ef372, 0xfa2a4622, 0x510e527f, 0x9b05688c, 0x1f83d9ab⟩ := by decide
/-- V15: a block of 64 bytes ff from IV. -/
theorem test_compress_ff : compress IV (Vector.replicate 16 0xffffffff) =
    #v[0xef0c748d, 0xf4da50a8, 0xd6c43c01, 0x3edc3ce7, 0x6c9d9fa9, 0xa1458ade, 0x56eb86c0, 0xa64492d2] := by decide +kernel
/-- V16: n = 56 of sixteen 61616161. -/
theorem test_padtail_56 : padtail aBlock 56 56 =
    [blockOf fun j => if j.val < 14 then 0x61616161 else if j.val = 14 then 0x80000000 else 0,
     blockOf fun j => if j.val = 15 then 0x1c0 else 0] := by decide
/-- V16: stale bytes are ignored, and 2^64 bits wrap to 0. -/
theorem test_padtail_wrap : padtail (Vector.replicate 16 0xdeadbeef) 0 0x2000000000000000 =
    [blockOf fun j => if j = 0 then 0x80000000 else 0] := by decide
/-- V1: the empty message, from a finished FINAL 0. -/
theorem test_complete_empty : (at_ finalizing 0 []).complete.core.H =
    #v[0xe3b0c442, 0x98fc1c14, 0x9afbf4c8, 0x996fb924, 0x27ae41e4, 0x649b934c, 0xa495991b, 0x7852b855] := by decide +kernel
/-- V2: "abc". -/
theorem test_sha256_abc : sha256 [0x61, 0x62, 0x63] =
    [0xba, 0x78, 0x16, 0xbf, 0x8f, 0x01, 0xcf, 0xea, 0x41, 0x41, 0x40, 0xde, 0x5d, 0xae, 0x22, 0x23,
     0xb0, 0x03, 0x61, 0xa3, 0x96, 0x17, 0x7a, 0x9c, 0xb4, 0x10, 0xff, 0x61, 0xf2, 0x00, 0x15, 0xad] := by decide +kernel
/-- V3 with 90_conflicts.md C1: "hello, world", the 64-digit value. -/
theorem test_sha256_hello : sha256 [0x68, 0x65, 0x6c, 0x6c, 0x6f, 0x2c, 0x20, 0x77, 0x6f, 0x72, 0x6c, 0x64] =
    [0x09, 0xca, 0x7e, 0x4e, 0xaa, 0x6e, 0x8a, 0xe9, 0xc7, 0xd2, 0x61, 0x16, 0x71, 0x29, 0x18, 0x48,
     0x83, 0x64, 0x4d, 0x07, 0xdf, 0xba, 0x7c, 0xbf, 0xbc, 0x4c, 0x8a, 0x2e, 0x08, 0x36, 0x0d, 0x5b] := by decide +kernel
/-- V20: 56 bytes 0x61, a two-block FINAL through the window of the cycle-level engine. -/
theorem test_cycle_engine_56 :
    (CycleEngine.run 132 (CycleEngine.start (at_ { CoreState.reset with
      JOB := some { kind := .final, blocks := padtail aBlock 56 56, newlen := 56 } } 0 []))).core.H =
    #v[0xb35439a4, 0xac6f0948, 0xb6d6f9e3, 0xc6af0f5f, 0x590ce20f, 0x1bde7090, 0xef797068, 0x6ec6738a] := by decide +kernel

/-! ## Commands and transactions: V18, V19 -/

theorem test_init_from_finished : got (exec .init (at_ finished 0 [])) (fun t => t.core == CoreState.reset) = some true := by
  decide
theorem test_update_busy_status : got (exec .update State.reset) (·.core.status) = some 0x00000001 := by decide
theorem test_update_while_busy : got (exec .update (at_ updating 1 [])) (·.core.status) = some 0x00000021 := by decide
theorem test_final_status : got (exec (.final 0) State.reset) (·.core.status) = some 0x00000005 := by decide
theorem test_final_after_final : got (exec (.final 0) (at_ finished 0 [])) (·.core.status) = some 0x0000000e := by decide
theorem test_clrerr_keeps_job :
    got (exec .clrerr (at_ { updating with ERR_BUSY := true, ERR_ACC := true } 1 [])) (fun t => t.core == updating) = some true := by
  decide
/-- V19, priority: an illegal word while busy and finalized raises ERR_CMD only. -/
theorem test_priority_cmd : got (command 0x5 (at_ finalizing 0 [])) (·.core.status) = some 0x00000015 := by decide
/-- V19, priority: UPDATE while busy and finalized raises ERR_BUSY only. -/
theorem test_priority_busy : got (command 0x2 (at_ finalizing 0 [])) (·.core.status) = some 0x00000025 := by decide
/-- V19, priority: a legal word written with size 2 raises ERR_ACC only. -/
theorem test_priority_acc : got (access (.write 0x00 2 0x2) (at_ finalizing 0 [])).2 (·.core.status) = some 0x00000045 := by
  decide
/-- V18: a misaligned write changes no MSG. -/
theorem test_misaligned_write : (access (.write 0x42 4 0x12345678) State.reset).1 = .error ∧
    got (access (.write 0x42 4 0x12345678) State.reset).2 (fun t => (t.core.MSG[0], t.core.status)) =
      some (0x00000000, 0x00000040) := by decide
/-- V18: DIGEST0 after FINAL 0 completes. -/
theorem test_digest0_read :
    (access (.read 0x20 4) (at_ finalizing 0 []).complete).1 = .data 0xe3b0c442 := by decide +kernel
/-- V18: DIGEST0 while the FINAL job is pending. -/
theorem test_digest0_gated : (access (.read 0x20 4) (at_ finalizing 0 [])).1 = .data 0 := by decide

/-! ## Steps -/

theorem test_step_final3 : got (step (State.reset.withFetchWord 32 0x33)) (·.core.status) = some 0x00000005 := by decide
theorem test_step_illegal : got (step (State.reset.withFetchWord 32 0x5)) (·.core.status) = some 0x00000010 := by decide
/-- R261: a MSG write and a raw CMD write are performed like any other line. -/
theorem test_step_lines : got (step (withInputs [.line (.wr (.msg 15) 7)])) (·.core.MSG[15]) = some 7 ∧
    got (step (withInputs [.line (.wrx 0x00 4 0x2)])) (·.core.status) = some 0x00000001 := by decide
/-- R320: reset abandons a job, and R321: the host is stuck while it is held. -/
theorem test_step_reset : got (step (at_ updating 1 [.reset 2])) (fun t => (t.core == CoreState.reset, t.resetHold)) =
    some (true, 2) := by decide
theorem test_step_held : got (step { withInputs [.line (.wr .cmd 2)] with resetHold := 1 })
    (fun t => (t.core.busy, t.host.inputs.length, t.resetHold)) = some (false, 1, 0) := by decide
/-- R110: a POLL of a busy engine stays. -/
theorem test_poll_stays : got (step (at_ updating 1 [.line waitLine])) (fun t => t.host.inputs) = some [.line waitLine] := by
  decide
/-- R110: EXPECT sees another value. -/
theorem test_expect_fails : got (step (withInputs [.line (.expect .status 6)])) (·.host.expectFailed) = some true := by decide
/-- R111: LOADBLK packs "abc". -/
theorem test_loadBlk : (loadBlk [0x61, 0x62, 0x63]).head? = some (.wr (.msg 0) 0x61626300) := by decide

/-! ## Witnesses: for each statement with hypotheses, a concrete case that meets them -/

theorem witness_ResetRecordAndInitLikeness : State.reset.core.JOB = none := by decide
theorem witness_ResetEventResets : (at_ updating 1 [.reset 0]).hostMoves = true ∧
    (at_ updating 1 [.reset 0]).host.inputs = [.reset 0] := by decide
theorem witness_ResetAloneStopsJob : ∃ j t, (at_ updating 1 [.reset 0]).core.JOB = some j ∧
    step (at_ updating 1 [.reset 0]) = .next t := ⟨_, _, rfl, rfl⟩
theorem witness_HeldResetAcceptsNothing : { State.reset with resetHold := 1 }.resetHold ≠ 0 := by decide
theorem witness_ReadyAtOnceAfterReset : accessLegal 0x00 4 = true ∧ accessLegal 0x7C 4 = true ∧
    (Instr.final 0).WellFormed ∧ (Instr.final 63).WellFormed := by decide
theorem witness_DecodeEncodeRoundTrip : (Instr.final 0).WellFormed ∧ (Instr.final 63).WellFormed ∧
    Instr.init.WellFormed ∧ Instr.update.WellFormed ∧ Instr.clrerr.WellFormed := by decide
theorem witness_EncodeDecodeRoundTrip : decode 0x3F3 = .ok (.final 63) := by decide
theorem witness_LegalWordsExactly : legal 0x403 = false ∧ legal 0x0 = false := by decide
theorem witness_InitStartsNewMessage : State.reset.core.JOB = none ∧ ∃ j, (at_ updating 0 []).core.JOB = some j :=
  ⟨rfl, _, rfl⟩
theorem witness_UpdateTakesTheBlock : (State.reset.core.JOB = none ∧ State.reset.core.FINALIZED = false) ∧
    ((at_ finished 0 []).core.JOB = none ∧ (at_ finished 0 []).core.FINALIZED = true) ∧
    ∃ j, (at_ updating 0 []).core.JOB = some j := ⟨by decide, by decide, _, rfl⟩
theorem witness_FinalPadsTheLastBytes : 0 ≤ 63 ∧ 63 ≤ 63 ∧
    (State.reset.core.JOB = none ∧ State.reset.core.FINALIZED = false) ∧
    ((at_ finished 0 []).core.JOB = none ∧ (at_ finished 0 []).core.FINALIZED = true) ∧
    ∃ j, (at_ finalizing 0 []).core.JOB = some j := ⟨by decide, by decide, by decide, by decide, _, rfl⟩
theorem witness_CommandFrame : (∃ t, exec .init State.reset = .next t) ∧ (∃ t, exec .update State.reset = .next t) ∧
    (∃ t, exec (.final 63) State.reset = .next t) ∧ ∃ t, exec .clrerr State.reset = .next t :=
  ⟨⟨_, rfl⟩, ⟨_, rfl⟩, ⟨_, rfl⟩, ⟨_, rfl⟩⟩
theorem witness_BusyDropsTheCommand : ∃ j, (at_ updating 0 []).core.JOB = some j ∧ 63 ≤ 63 := ⟨_, rfl, by decide⟩
theorem witness_WriteAfterFinalizeIsDropped : (at_ finished 0 []).core.JOB = none ∧
    (at_ finished 0 []).core.FINALIZED = true ∧ 0 ≤ 63 := by decide
theorem witness_OneErrorByPriority_one : ∃ t, (access (.read 0x7F 4) State.reset).2 = .next t ∧
    State.reset.core.errBit .acc = false ∧ t.core.errBit .acc = true := ⟨_, rfl, by decide, by decide⟩
theorem witness_OneErrorByPriority_order : (2 ≠ 4 ∨ (0x00 : Offset).toNat % 4 ≠ 0) ∧ (4 ≠ 4 ∨ (0x01 : Offset).toNat % 4 ≠ 0) ∧
    legal 0x5 = false ∧ (legal 0x1 = true ∧ (0x1 : Word) ≠ encode .clrerr ∧ (at_ updating 0 []).core.JOB = updating.JOB) ∧
    (legal 0x2 = true ∧ (0x2 : Word) ≠ encode .clrerr ∧ (0x2 : Word) ≠ encode .init ∧ (at_ finished 0 []).core.JOB = none ∧
      (at_ finished 0 []).core.FINALIZED = true) := by decide
theorem witness_ErrorBitsFall : ∃ t, step (at_ { CoreState.reset with ERR_WAF := true } 0 [.line (commandLine .clrerr)]) = .next t ∧
    t.core.errBit .waf = false := ⟨_, rfl, by decide⟩
/-- For ErrorsRaisedOnlyByTheirCause, one step for each error. -/
theorem witness_ErrorsRaisedOnlyByTheirCause :
    (∃ t, step (withInputs [.line (.rdx 0x04 1)]) = .next t ∧ t.core.errBit .acc = true) ∧
    (∃ t, step (withInputs [.line (.wr .cmd 5)]) = .next t ∧ t.core.errBit .cmd = true) ∧
    (∃ t, step (at_ updating 1 [.line (.wr .cmd 2)]) = .next t ∧ t.core.errBit .busy = true) ∧
    (∃ t, step (at_ finished 0 [.line (.wr .cmd 2)]) = .next t ∧ t.core.errBit .waf = true) ∧
    (∀ e, CoreState.reset.errBit e = false) ∧ (∀ e, updating.errBit e = false) ∧ ∀ e, finished.errBit e = false :=
  ⟨⟨_, rfl, by decide⟩, ⟨_, rfl, by decide⟩, ⟨_, rfl, by decide⟩, ⟨_, rfl, by decide⟩,
    fun e => by cases e <;> decide, fun e => by cases e <;> decide, fun e => by cases e <;> decide⟩
/-- For ReadStepByOffset and WriteStepByOffset. -/
theorem witness_ReadWriteStepByOffset : (5 ≠ 4 ∨ (0x7C : Offset).toNat % 4 ≠ 0) ∧ (4 ≠ 4 ∨ (0x7F : Offset).toNat % 4 ≠ 0) ∧
    ((0x04 : Offset).toNat % 4 = 0 ∧ 0 < (0x04 : Offset).toNat ∧ (0x04 : Offset).toNat < 0x40) ∧
    ((0x3C : Offset).toNat % 4 = 0 ∧ 0 < (0x3C : Offset).toNat ∧ (0x3C : Offset).toNat < 0x40) := by decide
theorem witness_IllegalAccessOnlySetsErrAcc : ((Access.read 0x00 1).size ≠ 4 ∨ (Access.read 0x00 1).off.toNat % 4 ≠ 0) ∧
    ((Access.write 0x42 4 0).size ≠ 4 ∨ (Access.write 0x42 4 0).off.toNat % 4 ≠ 0) := by decide
theorem witness_StatusFields : 7 ≤ 7 ∧ 7 ≤ 31 := by decide
theorem witness_MsgWriteReadsBackAndFrames : (0x7C : Offset).toNat % 4 = 0 ∧ (0x7C : Offset) ≠ (Reg.msg 0).off ∧
    (0x3C : Offset).toNat % 4 = 0 ∧ (0x3C : Offset) ≠ (Reg.msg 0).off := by decide
theorem witness_OnlyCommandsAreNotIdempotent : (∀ v, Access.write 0x40 4 7 ≠ .write 0x00 4 v) ∧
    (∃ t, (access (.write 0x40 4 7) State.reset).2 = .next t) ∧ (0x00 : Offset).toNat % 4 = 0 ∧
    (0x7C : Offset).toNat % 4 = 0 := ⟨by intro v h; simp at h, ⟨_, rfl⟩, by decide, by decide⟩
theorem witness_WindowAddresses : (BusRequest.read (Config.baseAddr + 0x80) 4).addr > Config.baseAddr + 0x7F := by
  simp [BusRequest.addr]
theorem witness_CompletionStep : (∃ j, (at_ updating 0 []).core.JOB = some j) ∧ State.reset.core.JOB = none ∧
    (at_ updating 0 []).resetHold = 0 ∧ (at_ updating 0 []).engineDue = true := ⟨⟨_, rfl⟩, by decide⟩
theorem witness_JobEndsInBoundedSteps : ∃ j, (at_ updating 1 [.line waitLine]).core.JOB = some j := ⟨_, rfl⟩
theorem witness_TransactionsDoNotDisturbTheJob : ∃ j t, (at_ updating 1 []).core.JOB = some j ∧
    (access (.write 0x00 4 0x2) (at_ updating 1 [])).2 = .next t := ⟨_, _, rfl, rfl⟩
theorem witness_EngineCommutesWithPlainTransactions : (∀ v, Access.write 0x7C 4 7 ≠ .write 0x00 4 v) ∧
    (∃ t, (access (.write 0x7C 4 7) (at_ updating 1 [])).2 = .next t) ∧
    ∃ u, (access (.write 0x7C 4 7) (at_ updating 1 []).complete).2 = .next u :=
  ⟨by intro v h; simp at h, ⟨_, rfl⟩, ⟨_, rfl⟩⟩
theorem witness_CycleEngineRefinesCompletion :
    (∃ j, (at_ updating 0 []).core.JOB = some j ∧ j.blocks.length = 1) ∧
    (padtail aBlock 56 56).length = 2 := ⟨⟨_, rfl, rfl⟩, rfl⟩
theorem witness_Add32AnyOrder : [(1 : Word), 2, 3].Perm [3, 1, 2] := by decide
/-- For RotateAndShiftBits, ChooseAndMajorityBits and SigmaBits: the ends of the bit range. -/
theorem witness_RotateChooseSigmaBits : 0 < 32 ∧ 31 < 32 := by decide
theorem witness_ScheduleWords : 16 ≤ 16 ∧ 16 ≤ 63 ∧ 63 ≤ 63 ∧ (blockBytes aBlock).length = 64 ∧ 15 < 16 := by decide
theorem witness_WindowGivesTheSchedule : 0 < 64 ∧ 63 < 64 := by decide
theorem witness_CompressByRounds : 0 < 64 ∧ 63 < 64 := by decide
theorem witness_PadtailBlocks : 55 ≤ 63 ∧ 55 ≤ 55 ∧ 56 ≤ 63 ∧ 56 ≤ 56 ∧ 63 ≤ 63 ∧ 0 ≤ 55 := by decide
theorem witness_PadtailIgnoresStaleBytes : ∀ i, i < 3 →
    (blockBytes abcBlock).getD i 0 = (blockBytes (abcBlock.set 9 5)).getD i 0 := by decide
theorem witness_LengthFieldWords : 0 ≤ 63 ∧ 63 ≤ 63 := by decide
theorem witness_SerializeLayout : finished.DVALID = true := by decide
theorem witness_CommandSequence : State.reset.core.Fresh ∧ State.reset.core.errorFree = true ∧ State.reset.core.JOB = none :=
  ⟨⟨rfl, rfl, rfl, rfl⟩, by decide, by decide⟩
theorem witness_WritersOfHAndLen : (∃ t, step (at_ updating 0 []) = .next t) ∧ State.reset.core.JOB = none ∧
    State.reset.core.FINALIZED = false ∧ 63 ≤ 63 := ⟨⟨_, rfl⟩, by decide⟩
theorem witness_StepRunsTheDecodedCommand : (withInputs [.line (.wr .cmd 0x33)]).hostMoves = true ∧
    (withInputs [.line (.wr .cmd 0x33)]).host.inputs = [.line (.wr .cmd 0x33)] ∧ decode 0x33 = .ok (.final 3) ∧
    (withInputs [.line (.wrx 0x00 4 0x33)]).hostMoves = true ∧ (Line.wrx 0x00 4 0x33).access = .write 0x00 4 0x33 ∧
    (withInputs [.line (.wrx 0x00 4 0x33)]).host.inputs = [.line (.wrx 0x00 4 0x33)] ∧
    legal 0x5 = false ∧ 0x3F3 < 2 ^ 32 ∧ decodeTableWord 32 0x3F3 = some (.final 63) := by decide
theorem witness_PollRepeatsAndExpectCompares : (withInputs [.line waitLine]).hostMoves = true ∧
    (withInputs [.line waitLine]).host.inputs = [.line waitLine] ∧
    (withInputs [.line (.expect .status 0)]).host.inputs = [.line (.expect .status 0)] := by decide
theorem witness_EndedRunIsIdle : (∃ t, step (withInputs [.line (.wr .cmd 2)]) = .next t ∧ t.core.busy = true) ∧
    (State.reset.core.busy = true → State.reset.host.awaiting = true) ∧ State.reset.runEnded = true :=
  ⟨⟨_, rfl, by decide⟩, by decide, by decide⟩
/-- Invariants that a record with a digest, one with a job, and the reset record meet (R49). -/
theorem finished_inv : finished.Inv := ⟨by decide, by decide, by simp [finished, CoreState.reset]⟩
theorem updating_inv : updating.Inv :=
  ⟨by decide, by decide, by
    intro j h
    have hj : updating.JOB = some { kind := .update, blocks := [Vector.replicate 16 0], newlen := 64 } := rfl
    rw [hj, Option.some.injEq] at h
    subst h
    exact ⟨fun _ => by decide, fun h => by simp at h⟩⟩
theorem witness_StepKeepsR49 : updating.Inv ∧ ∃ t, step (at_ updating 0 []) = .next t := ⟨updating_inv, _, rfl⟩
theorem witness_FinalizedIdleHasDigest : finished.Inv ∧
    (finished.FINALIZED = true → finished.JOB = none → finished.DVALID = true) ∧
    ∃ t, step (at_ finished 0 [.line (.rd .status)]) = .next t ∧ t.core.FINALIZED = true ∧ t.core.JOB = none :=
  ⟨finished_inv, by decide, _, rfl, by decide, by decide⟩
theorem witness_RoundCounterStaysInRange : State.reset.pipe.ROUND.toNat ≤ 64 ∧ (∃ t, step State.reset = .next t) ∧
    (64 : BitVec 7).toNat ≤ 64 := ⟨by decide, ⟨_, rfl⟩, by decide⟩
theorem witness_DigestStableUntilInitOrReset : finished.Inv ∧ finished.DVALID = true ∧
    ∃ t, step (at_ finished 0 [.line (.wr .cmd 2)]) = .next t := ⟨finished_inv, rfl, _, rfl⟩
/-- BUSY and FINALIZED rise by FINAL, DVALID rises by the completion, all fall by INIT or reset (R38). -/
theorem witness_StatusFlagTransitions :
    (∃ t, step (withInputs [.line (commandLine (.final 0))]) = .next t ∧ t.core.busy = true ∧ t.core.FINALIZED = true) ∧
    (∃ t, step (at_ finalizing 0 []) = .next t ∧ t.core.busy = false ∧ t.core.DVALID = true) ∧
    (∃ t, step (at_ finished 0 [.line (commandLine .init)]) = .next t ∧ t.core.DVALID = false ∧ t.core.FINALIZED = false) :=
  ⟨⟨_, rfl, by decide, by decide⟩, ⟨_, rfl, by decide, by decide⟩, ⟨_, rfl, by decide, by decide⟩⟩
theorem witness_WritersOfMsg : ∃ t, step (withInputs [.line (.wr (.msg 15) 7)]) = .next t ∧ t.core.MSG[15] = 7 :=
  ⟨_, rfl, by decide⟩
theorem witness_HiddenStateIsUnobservable : (∃ t, step (at_ updating 0 []) = .next t) ∧
    (∃ u, step { at_ updating 0 [] with pipe := { Pipeline.reset with ROUND := 64 } } = .next u) ∧
    (CoreState.reset.DVALID = false ∧ CoreState.reset.JOB = none) ∧
    updating.DVALID = false ∧ ∃ j, updating.JOB = some j := ⟨⟨_, rfl⟩, ⟨_, rfl⟩, ⟨rfl, rfl⟩, rfl, _, rfl⟩
theorem witness_BusyCyclesOfCommands : (Instr.final 56).WellFormed ∧ State.reset.core.JOB = none ∧
    ∃ t, exec (.final 56) State.reset = .next t ∧ t.core.busy = true := ⟨by decide, rfl, _, rfl, by decide⟩

end Sys2Proof.Tests
end

/-! SUPPORT. The state's own rules (10_state.md): what a step does to the data of the record, to the pipeline and to the
register window, said once, and then the statements of that family. -/
namespace Sys2Proof.Machine

/-! ## Accepted commands -/

theorem exec_init_of_idle {s : State} (idle : s.core.JOB = none) :
    exec .init s = .next { s with core := s.core.newMessage } := by
  rw [exec, execInit, whenIdle_of_idle _ _ ((busy_false_iff _).2 idle)]

theorem exec_update_of_open {s : State} (idle : s.core.JOB = none) (unfinalized : s.core.FINALIZED = false) :
    exec .update s = .next (s.startJob (updateJob s.core)) := by
  rw [exec, execUpdate, whenIdle_of_idle _ _ ((busy_false_iff _).2 idle), whenOpen_of_open _ _ unfinalized]

theorem exec_final_of_open {s : State} (n : Nat) (idle : s.core.JOB = none) (unfinalized : s.core.FINALIZED = false) :
    exec (.final n) s = .next (s.startJob (finalJob n s.core)).setFinalized := by
  rw [exec, execFinal, whenIdle_of_idle _ _ ((busy_false_iff _).2 idle), whenOpen_of_open _ _ unfinalized]

/-! ## The record after reset -/

/-- Settles O1. -/
theorem resetRecordAndInitLikeness : Obligations.ResetRecordAndInitLikeness := by
  refine ⟨rfl, by decide, rfl, rfl, rfl, rfl, rfl, rfl, rfl, rfl, fun s idle => ⟨_, exec_init_of_idle idle, ?_⟩⟩
  simp [CoreState.newMessage, CoreState.clearErrors, State.reset, CoreState.reset, idle]

theorem CoreState.reset_inv : CoreState.reset.Inv := ⟨nofun, fun _ => rfl, nofun⟩

/-- Settles O51. -/
theorem resetKeepsR49 : Obligations.ResetKeepsR49 := CoreState.reset_inv

/-! ## Two records with the same data -/

/-- The two records differ in their error bits at most. -/
structure CoreState.SameData (c c' : CoreState) : Prop where
  H         : c'.H = c.H
  MSG       : c'.MSG = c.MSG
  LEN       : c'.LEN = c.LEN
  DVALID    : c'.DVALID = c.DVALID
  FINALIZED : c'.FINALIZED = c.FINALIZED
  JOB       : c'.JOB = c.JOB

theorem CoreState.SameData.refl (c : CoreState) : c.SameData c := ⟨rfl, rfl, rfl, rfl, rfl, rfl⟩

theorem CoreState.sameData_raise (e : Err) (c : CoreState) : c.SameData (c.raise e) := by
  constructor <;> simp

theorem CoreState.sameData_clearErrors (c : CoreState) : c.SameData c.clearErrors := ⟨rfl, rfl, rfl, rfl, rfl, rfl⟩

/-! ## What a command and a step do to the data of the record -/

/-- Everything a command can do to the data of the record: a refused command, and CLRERR, leave it. -/
inductive CommandEffect (i : Instr) (c c' : CoreState) : Prop where
  | kept (data : c.SameData c')
  | init (command : i = .init) (idle : c.JOB = none) (core : c' = c.newMessage)
  | update (command : i = .update) (idle : c.JOB = none) (unfinalized : c.FINALIZED = false)
      (core : c' = { c with JOB := some (updateJob c) })
  | final (n : Nat) (command : i = .final n) (idle : c.JOB = none) (unfinalized : c.FINALIZED = false)
      (core : c' = { c with FINALIZED := true, JOB := some (finalJob n c) })

theorem exec_effect {i : Instr} {s t : State} (h : exec i s = .next t) : CommandEffect i s.core t.core := by
  cases i with
  | init =>
    rcases execInit_cases h with ⟨-, rfl⟩ | ⟨hb, rfl⟩
    · exact .kept (CoreState.sameData_raise .busy _)
    · exact .init rfl ((busy_false_iff _).1 hb) rfl
  | update =>
    rcases execUpdate_cases h with ⟨-, rfl⟩ | ⟨-, -, rfl⟩ | ⟨hb, hf, rfl⟩
    · exact .kept (CoreState.sameData_raise .busy _)
    · exact .kept (CoreState.sameData_raise .waf _)
    · exact .update rfl ((busy_false_iff _).1 hb) hf rfl
  | final n =>
    rcases execFinal_cases h with ⟨-, rfl⟩ | ⟨-, -, rfl⟩ | ⟨hb, hf, rfl⟩
    · exact .kept (CoreState.sameData_raise .busy _)
    · exact .kept (CoreState.sameData_raise .waf _)
    · exact .final n rfl ((busy_false_iff _).1 hb) hf rfl
  | clrerr =>
    obtain rfl := execClrerr_cases h
    exact .kept (CoreState.sameData_clearErrors _)

/-- Everything a step can do to the data of the record: `StepEffect` with its cases that touch error bits only put together
and its commands taken apart. -/
inductive DataEffect (s t : State) : Prop where
  | kept (data : s.core.SameData t.core)
  /-- A legal MSG write (10_state.md R46). -/
  | msgWrite (l : Line) (rest : List Input) (moves : s.hostMoves = true) (next : s.host.inputs = .line l :: rest)
      (off : Offset) (n : Nat) (v : Word) (j : Fin 16) (write : l.access = .write off n v)
      (form : accessLegal off n = true) (reg : Reg.ofOffset off = .msg j)
      (core : t.core = { s.core with MSG := s.core.MSG.set j v })
  /-- The engine completes the job (45_commands.md R250). -/
  | completed (j : Job) (job : s.core.JOB = some j) (due : s.resetHold = 0 ∧ s.engineDue = true)
      (eq : t = s.complete) (core : t.core = s.core.complete j)
  /-- The reset event (70_reset_and_hazards.md R320). -/
  | reset (next : s.NextReset) (core : t.core = CoreState.reset)
  /-- INIT accepted (45_commands.md R240). -/
  | init (next : s.NextCommand .init) (idle : s.core.JOB = none) (core : t.core = s.core.newMessage)
  /-- UPDATE accepted (R241). -/
  | update (next : s.NextCommand .update) (idle : s.core.JOB = none) (unfinalized : s.core.FINALIZED = false)
      (core : t.core = { s.core with JOB := some (updateJob s.core) })
  /-- FINAL accepted (R242). -/
  | final (n : Nat) (next : s.NextCommand (.final n)) (idle : s.core.JOB = none)
      (unfinalized : s.core.FINALIZED = false)
      (core : t.core = { s.core with FINALIZED := true, JOB := some (finalJob n s.core) })

theorem step_dataEffect {s t : State} (h : step s = .next t) : DataEffect s t := by
  cases step_effect h with
  | unchanged core => exact .kept (core ▸ .refl _)
  | completed j job due eq core => exact .completed j job due eq core
  | reset next core => exact .reset next core
  | illegalAccess l rest moves next form core => exact .kept (core ▸ CoreState.sameData_raise .acc _)
  | msgWrite l rest moves next off n v j write form reg core =>
    exact .msgWrite l rest moves next off n v j write form reg core
  | illegalWord l rest moves next w write e word core => exact .kept (core ▸ CoreState.sameData_raise .cmd _)
  | command i l rest moves next present effect =>
    obtain ⟨u, hu, core⟩ := effect
    have hn : s.NextCommand i := ⟨moves, l, rest, next, present⟩
    have hc : CommandEffect i s.core t.core := by
      rw [core]; exact exec_effect (s := s.takeInput rest) hu
    cases hc with
    | kept data => exact .kept data
    | init command idle core => exact .init (command ▸ hn) idle core
    | update command idle unfinalized core => exact .update (command ▸ hn) idle unfinalized core
    | final n command idle unfinalized core => exact .final n (command ▸ hn) idle unfinalized core

/-! ## The invariants of R49, one lemma per effect -/

theorem padtail_length (M : Block) (n : Nat) (ltot : Word64) :
    (padtail M n ltot).length = if n ≤ 55 then 1 else 2 := by
  unfold padtail; split <;> rfl

/-- R49 speaks of neither H nor MSG nor the error bits. -/
theorem CoreState.Inv.congr {c c' : CoreState} (h : c.Inv) (hl : c'.LEN = c.LEN) (hd : c'.DVALID = c.DVALID)
    (hf : c'.FINALIZED = c.FINALIZED) (hj : c'.JOB = c.JOB) : c'.Inv where
  digestValid := by simpa [CoreState.busy, hd, hf, hj] using h.digestValid
  lenAligned := by simpa [hl, hf] using h.lenAligned
  jobOk := by simpa [CoreState.JobOk, hl, hf, hj] using h.jobOk

/-- A record that is not finalized shows no digest: (a) of R49. -/
theorem CoreState.Inv.dvalid_of_unfinalized {c : CoreState} (h : c.Inv) (hf : c.FINALIZED = false) :
    c.DVALID = false := by
  cases hd : c.DVALID with
  | false => rfl
  | true => simp [(h.digestValid hd).1] at hf

/-- A record with a job in flight shows no digest: (a) of R49. -/
theorem CoreState.Inv.dvalid_of_job {c : CoreState} {j : Job} (h : c.Inv) (hj : c.JOB = some j) : c.DVALID = false := by
  cases hd : c.DVALID with
  | false => rfl
  | true =>
    have hb := (h.digestValid hd).2
    simp [CoreState.busy, hj] at hb

theorem CoreState.Inv.newMessage {c : CoreState} (idle : c.JOB = none) : c.newMessage.Inv where
  digestValid := by simp
  lenAligned := by simp
  jobOk := by simp [idle]

theorem CoreState.Inv.updateStarted {c : CoreState} (h : c.Inv) (hf : c.FINALIZED = false) :
    { c with JOB := some (updateJob c) }.Inv where
  digestValid hd := absurd hd (by simp [h.dvalid_of_unfinalized hf])
  lenAligned := h.lenAligned
  jobOk := by
    rintro j ⟨⟩
    exact ⟨fun _ => ⟨hf, rfl, rfl⟩, fun hk => nomatch hk⟩

theorem CoreState.Inv.finalStarted {c : CoreState} (h : c.Inv) (hf : c.FINALIZED = false) (n : Nat) :
    { c with FINALIZED := true, JOB := some (finalJob n c) }.Inv where
  digestValid hd := absurd hd (by simp [h.dvalid_of_unfinalized hf])
  lenAligned hf' := nomatch hf'
  jobOk := by
    rintro j ⟨⟩
    refine ⟨fun hk => (nomatch hk), fun _ => ⟨rfl, ?_⟩⟩
    rw [finalJob, padtail_length]
    split <;> simp

/-- A completed FINAL leaves a finalized record with a digest, a completed UPDATE an open one, 64 bytes longer. -/
theorem CoreState.Inv.complete {c : CoreState} {j : Job} (h : c.Inv) (hj : c.JOB = some j) : (c.complete j).Inv := by
  obtain ⟨hu, hf⟩ := h.jobOk j hj
  cases hk : j.kind with
  | update =>
    obtain ⟨hopen, -, hlen⟩ := hu hk
    refine ⟨by simp [hk, h.dvalid_of_job hj], fun _ => ?_, by simp⟩
    have haligned := h.lenAligned hopen
    have h64 : (64 : Word64).toNat = 64 := rfl
    rw [complete_LEN, hlen, BitVec.toNat_add]
    omega
  | final =>
    obtain ⟨hfin, -⟩ := hf hk
    exact ⟨fun _ => ⟨hfin, rfl⟩, by simp [hfin], by simp⟩

theorem step_inv {s t : State} (hi : s.core.Inv) (h : step s = .next t) : t.core.Inv := by
  cases step_dataEffect h with
  | kept data => exact hi.congr data.LEN data.DVALID data.FINALIZED data.JOB
  | msgWrite _ _ _ _ _ _ _ _ _ _ _ core => rw [core]; exact hi.congr rfl rfl rfl rfl
  | completed j job due eq core => exact core ▸ hi.complete job
  | reset next core => exact core ▸ CoreState.reset_inv
  | init next idle core => exact core ▸ CoreState.Inv.newMessage idle
  | update next idle unfinalized core => exact core ▸ hi.updateStarted unfinalized
  | final n next idle unfinalized core => exact core ▸ hi.finalStarted unfinalized n

/-- Settles O52: the invariants hold again after each effect a step can have on the data of the record. -/
theorem stepKeepsR49 : Obligations.StepKeepsR49 := fun _ _ => step_inv

/-- Settles O53: of the effects on a finalized record only a FINAL's completion makes it idle, and that raises DVALID; by
(c) of R49 the completed job of a finalized record is no UPDATE. -/
theorem finalizedIdleHasDigest : Obligations.FinalizedIdleHasDigest := by
  intro s t hi hd h hf hj
  cases step_dataEffect h with
  | kept data => rw [data.DVALID]; exact hd (data.FINALIZED ▸ hf) (data.JOB ▸ hj)
  | msgWrite _ _ _ _ _ _ _ _ _ _ _ core => rw [core] at hf hj ⊢; exact hd hf hj
  | completed j job due eq core =>
    rw [core, CoreState.complete_FINALIZED] at hf
    cases hk : j.kind with
    | update => simp [((hi.jobOk j job).1 hk).1] at hf
    | final => simp [core, hk]
  | reset next core => rw [core] at hf; exact nomatch hf
  | init next idle core => rw [core] at hf; exact nomatch hf
  | update next idle unfinalized core => rw [core] at hj; exact nomatch hj
  | final n next idle unfinalized core => rw [core] at hj; exact nomatch hj

/-! ## Writers of the flags, H, LEN and MSG -/

/-- Settles O56: each flag changes under the effects that name it and stays under the others. -/
theorem statusFlagTransitions : Obligations.StatusFlagTransitions := by
  intro s t h
  cases step_dataEffect h with
  | kept data => simp +contextual [CoreState.busy, data.JOB, data.DVALID, data.FINALIZED]
  | msgWrite _ _ _ _ _ _ _ _ _ _ _ core => simp +contextual [core, CoreState.busy]
  | completed j job due eq core =>
    refine ⟨by simp [core, CoreState.busy], fun _ _ => .inl due, fun h0 h1 => ⟨j, job, ?_, eq⟩,
      by simp +contextual [core], by simp +contextual [core], by simp +contextual [core]⟩
    simpa [core, h0] using h1
  | reset next core =>
    rw [core]
    exact ⟨nofun, fun _ _ => .inr next, nofun, fun _ _ => .inr next, nofun, fun _ _ => .inr next⟩
  | init next idle core => simp [core, CoreState.busy, idle, next]
  | update next idle unfinalized core => simp +contextual [core, CoreState.busy, next]
  | final n next idle unfinalized core =>
    have hn : ∃ n, s.NextCommand (.final n) := ⟨n, next⟩
    simp +contextual [core, CoreState.busy, hn]

/-- Settles O57. -/
theorem writersOfHAndLen : Obligations.WritersOfHAndLen := by
  refine ⟨fun s t h => ?_, fun s n idle unfinalized _ => ⟨?_, ?_⟩⟩
  · cases step_dataEffect h with
    | kept data => exact .inl ⟨data.H, data.LEN⟩
    | msgWrite _ _ _ _ _ _ _ _ _ _ _ core => exact .inl (by simp [core])
    | completed j job due eq core => exact .inr (.inr ⟨j, job, eq, by simp [core, compressAll], by simp [core]⟩)
    | reset next core => exact .inr (.inl ⟨.inl next, by rw [core]; rfl, by rw [core]; rfl⟩)
    | init next idle core => exact .inr (.inl ⟨.inr next, by simp [core], by simp [core]⟩)
    | update next idle unfinalized core => exact .inl (by simp [core])
    | final n next idle unfinalized core => exact .inl (by simp [core])
  · refine ⟨_, exec_update_of_open idle unfinalized, rfl, ?_⟩
    rw [State.complete_core _ _ rfl]; rfl
  · refine ⟨_, exec_final_of_open n idle unfinalized, rfl, ?_⟩
    rw [State.complete_core _ _ rfl]; rfl

/-- Settles O58. -/
theorem writersOfMsg : Obligations.WritersOfMsg := by
  intro s t h
  cases step_dataEffect h with
  | kept data => exact .inl data.MSG
  | msgWrite l rest moves next off n v j write form reg core =>
    exact .inr (.inr ⟨moves, l, rest, off, n, v, j, next, write, form, reg, by rw [core]⟩)
  | completed j job due eq core => exact .inl (by simp [core])
  | reset next core => exact .inr (.inl next)
  | init next idle core => exact .inl (by simp [core])
  | update next idle unfinalized core => exact .inl (by simp [core])
  | final n next idle unfinalized core => exact .inl (by simp [core])

end Sys2Proof.Machine

/-! SUPPORT. The register window seen from the record: STATUS and MSG (10_state.md R42, R46). -/
namespace Sys2Proof.Machine

/-! ## Reads and writes of a register at its own offset -/

theorem access_read_off (r : Reg) (s : State) : access (.read r.off 4) s = (.data (s.core.readReg r), .next s) := by
  simp [access, memRead, CoreState.readOff]

theorem access_write_off (r : Reg) (v : Word) (s : State) : access (.write r.off 4 v) s = (.okay, writeReg r v s) := by
  simp [access, memWrite]

/-! ## The bits of STATUS -/

/-- The bits of STATUS, lowest first (10_state.md R42). -/
def CoreState.statusBits (c : CoreState) : List Bool :=
  [c.busy, c.DVALID, c.FINALIZED, c.ERR_WAF, c.ERR_CMD, c.ERR_BUSY, c.ERR_ACC]

theorem CoreState.status_getLsbD (c : CoreState) (i : Nat) : c.status.getLsbD i = c.statusBits.getD i false := by
  obtain _ | _ | _ | _ | _ | _ | _ | i := i <;>
    simp only [CoreState.status, BitVec.getLsbD_setWidth, BitVec.getLsbD_append] <;> simp [CoreState.statusBits]

/-- Settles O23. -/
theorem statusFields : Obligations.StatusFields := by
  intro s
  simp only [CoreState.status_getLsbD]
  refine ⟨rfl, rfl, rfl, rfl, rfl, rfl, rfl, fun i hi => ?_, by decide, fun v => access_write_off .status v s⟩
  exact List.getD_eq_default _ _ hi

/-! ## A MSG write -/

theorem State.setMsg_readReg_same (j : Fin 16) (v : Word) (s : State) :
    (s.setMsg j v).core.readReg (.msg j) = v := by
  simp [CoreState.readReg]

theorem State.setMsg_readReg_of_ne {r : Reg} {j : Fin 16} (h : r ≠ .msg j) (v : Word) (s : State) :
    (s.setMsg j v).core.readReg r = s.core.readReg r := by
  cases r with
  | msg k =>
    have hk : j.val ≠ k.val := fun e => h (congrArg Reg.msg (Fin.ext e.symm))
    simp [CoreState.readReg, Vector.getElem_set_ne, hk]
  | _ => rfl

/-- Settles O24: the write leaves `setMsg`, and an aligned offset other than MSGj's selects another register. -/
theorem msgWriteReadsBackAndFrames : Obligations.MsgWriteReadsBackAndFrames := by
  intro s j v
  refine ⟨s.setMsg j v, access_write_off _ _ _, ?_, fun off hoff hne => ?_, rfl, rfl, rfl, rfl, rfl, rfl, ?_⟩
  · rw [access_read_off, State.setMsg_readReg_same]
  · refine State.setMsg_readReg_of_ne (fun hr => hne ?_) v s
    rw [← Reg.off_ofOffset off hoff, hr]
  · intro e; cases e <;> rfl

end Sys2Proof.Machine

/-! SUPPORT. The hidden sequencing state (10_state.md R37, R50): the range of ROUND, and that no part of a step but the engine
reads or writes the pipeline. -/
namespace Sys2Proof.Machine

/-! ## The range of ROUND -/

@[simp] theorem Pipeline.load_ROUND (H : HashState) (b : Block) (p : Pipeline) : (p.load H b).ROUND = 0 := rfl

@[simp] theorem Pipeline.roundStep_ROUND (p : Pipeline) : p.roundStep.ROUND = p.ROUND + 1 := rfl

theorem Pipeline.roundSteps_ROUND (n : Nat) (p : Pipeline) :
    (p.roundSteps n).ROUND = p.ROUND + BitVec.ofNat 7 n := by
  induction n generalizing p with
  | zero => simp [Pipeline.roundSteps]
  | succ n ih => rw [Pipeline.roundSteps, ih, roundStep_ROUND, BitVec.add_assoc, BitVec.add_comm 1, BitVec.ofNat_add]; rfl

/-- A block's run leaves ROUND at "accumulate next". -/
@[simp] theorem Pipeline.runBlock_ROUND (i : Nat) (H : HashState) (b : Block) (p : Pipeline) :
    (p.runBlock i H b).ROUND = 64 := by
  rw [Pipeline.runBlock, roundSteps_ROUND, load_ROUND]; rfl

theorem Pipeline.runBlocks_ROUND_le (bs : List Block) (i : Nat) (H : HashState) (p : Pipeline)
    (h : p.ROUND.toNat ≤ 64) : (p.runBlocks i H bs).ROUND.toNat ≤ 64 := by
  induction bs generalizing i H p with
  | nil => exact h
  | cons b bs ih => exact ih _ _ _ (by rw [runBlock_ROUND]; decide)

theorem State.complete_ROUND_le {s : State} (h : s.pipe.ROUND.toNat ≤ 64) : s.complete.pipe.ROUND.toNat ≤ 64 := by
  unfold State.complete
  split
  · exact h
  · exact Pipeline.runBlocks_ROUND_le _ _ _ _ h

theorem CycleEngine.accumulateStep_pipe_ROUND (j : Job) (c : CycleEngine) :
    (c.accumulateStep j).pipe.ROUND = c.pipe.ROUND := by
  simp only [CycleEngine.accumulateStep]; split <;> rfl

theorem CycleEngine.next_ROUND_le {c : CycleEngine} (h : c.pipe.ROUND.toNat ≤ 64) : c.next.pipe.ROUND.toNat ≤ 64 := by
  unfold CycleEngine.next
  split
  next => exact h
  next j _ =>
    split
    next => simp
    next =>
      split
      next hlt =>
        have h1 : (1 : BitVec 7).toNat = 1 := rfl
        rw [Pipeline.roundStep_ROUND, BitVec.toNat_add]
        omega
      next => rw [accumulateStep_pipe_ROUND]; exact h

/-! ## The pipeline is neither read nor written by commands and transactions -/

/-- The same state with other pipeline registers. -/
def State.withPipe (p : Pipeline) (s : State) : State := { s with pipe := p }

@[simp] theorem State.withPipe_core (p : Pipeline) (s : State) : (s.withPipe p).core = s.core := rfl

@[simp] theorem State.withPipe_host (p : Pipeline) (s : State) : (s.withPipe p).host = s.host := rfl

@[simp] theorem State.withPipe_resetHold (p : Pipeline) (s : State) : (s.withPipe p).resetHold = s.resetHold := rfl

@[simp] theorem State.withPipe_turns (p : Pipeline) (s : State) : (s.withPipe p).turns = s.turns := rfl

@[simp] theorem State.withPipe_pipe (p : Pipeline) (s : State) : (s.withPipe p).pipe = p := rfl

theorem whenIdle_withPipe (p : Pipeline) (s : State) (o : Host.Outcome State Fault Refusal) :
    whenIdle (s.withPipe p) (andThen o (State.withPipe p)) = andThen (whenIdle s o) (State.withPipe p) := by
  cases hb : s.core.busy with
  | true => rw [whenIdle_of_busy s _ hb, whenIdle_of_busy (s.withPipe p) _ hb]; rfl
  | false => rw [whenIdle_of_idle s _ hb, whenIdle_of_idle (s.withPipe p) _ hb]

theorem whenOpen_withPipe (p : Pipeline) (s : State) (o : Host.Outcome State Fault Refusal) :
    whenOpen (s.withPipe p) (andThen o (State.withPipe p)) = andThen (whenOpen s o) (State.withPipe p) := by
  cases hf : s.core.FINALIZED with
  | true => rw [whenOpen_of_finalized s _ hf, whenOpen_of_finalized (s.withPipe p) _ hf]; rfl
  | false => rw [whenOpen_of_open s _ hf, whenOpen_of_open (s.withPipe p) _ hf]

theorem exec_withPipe (i : Instr) (p : Pipeline) (s : State) :
    exec i (s.withPipe p) = andThen (exec i s) (State.withPipe p) := by
  cases i with
  | init => exact whenIdle_withPipe p s (.next { s with core := s.core.newMessage })
  | update =>
    rw [exec, exec, execUpdate, execUpdate, ← whenIdle_withPipe, ← whenOpen_withPipe]; rfl
  | final n =>
    rw [exec, exec, execFinal, execFinal, ← whenIdle_withPipe, ← whenOpen_withPipe]; rfl
  | clrerr => rfl

theorem command_withPipe (w : Word) (p : Pipeline) (s : State) :
    command w (s.withPipe p) = andThen (command w s) (State.withPipe p) := by
  unfold command
  split
  · rfl
  · exact exec_withPipe _ p s

theorem writeReg_withPipe (r : Reg) (v : Word) (p : Pipeline) (s : State) :
    writeReg r v (s.withPipe p) = andThen (writeReg r v s) (State.withPipe p) := by
  cases r with
  | cmd => exact command_withPipe v p s
  | _ => rfl

theorem access_withPipe (a : Access) (p : Pipeline) (s : State) :
    access a (s.withPipe p) = ((access a s).1, andThen (access a s).2 (State.withPipe p)) := by
  cases a with
  | read off n => simp only [access, memRead]; split <;> rfl
  | write off n v =>
    simp only [access, memWrite]
    split
    · rw [writeReg_withPipe]
    · rfl

theorem afterLine_withPipe (l : Line) (p : Pipeline) (before s : State) :
    afterLine l (before.withPipe p) (s.withPipe p) = (afterLine l before s).withPipe p := by
  cases l with
  | poll r mask value => simp only [afterLine, State.withPipe_core, apply_ite (State.withPipe p)]; rfl
  | expect r imm => simp only [afterLine, State.withPipe_core, apply_ite (State.withPipe p)]; rfl
  | _ => rfl

theorem performLine_withPipe (l : Line) (p : Pipeline) (s : State) :
    performLine l (s.withPipe p) = andThen (performLine l s) (State.withPipe p) := by
  obtain ⟨u, hu⟩ := access_runs l.access s
  simp only [performLine, transact, access_withPipe, hu, andThen_next]
  exact congrArg _ (afterLine_withPipe l p s (noted l.access (access l.access s).1 s u))

theorem State.complete_withPipe (p : Pipeline) (s : State) :
    ∃ q, (s.withPipe p).complete = s.complete.withPipe q := by
  unfold State.complete
  rw [State.withPipe_core]
  split
  · exact ⟨p, rfl⟩
  · exact ⟨_, rfl⟩

theorem step_of_due {s : State} (hold : s.resetHold = 0) (due : s.engineDue = true) : step s = .next s.complete := by
  simp [step, hold, due]

theorem step_of_hostMoves {s : State} (moves : s.hostMoves = true) : step s = hostTurn s := by
  have hm : s.resetHold = 0 ∧ s.engineDue = false := by simpa [State.hostMoves] using moves
  simp [step, hm]

/-- A step from a state with other pipeline registers is the same step, up to the pipeline. -/
theorem step_withPipe {s t : State} (p : Pipeline) (h : step s = .next t) :
    ∃ q, step (s.withPipe p) = .next (t.withPipe q) := by
  rcases step_cases h with ⟨hh, rfl⟩ | ⟨h0, hd, rfl⟩ | ⟨hm, hi, rfl⟩ | ⟨hm, l, rest, hi, hl⟩ | ⟨hm, hold, rest, hi, rfl⟩
  · exact ⟨p, if_pos hh⟩
  · obtain ⟨q, hq⟩ := State.complete_withPipe p s
    exact ⟨q, by rw [← hq]; exact step_of_due h0 hd⟩
  · refine ⟨p, ?_⟩
    rw [step_of_hostMoves (s := t.withPipe p) hm, hostTurn, State.withPipe_host, hi]
  · refine ⟨p, (step_of_line (s := s.withPipe p) hm hi).trans ?_⟩
    exact (performLine_withPipe l p (s.takeInput rest)).trans (by rw [hl]; rfl)
  · refine ⟨Pipeline.reset, ?_⟩
    rw [step_of_hostMoves (s := s.withPipe p) hm, hostTurn, State.withPipe_host, hi]
    rfl

/-! ## What the registers show of H and JOB -/

/-- While DVALID = 0 the registers show of H nothing and of JOB only whether there is one. -/
theorem CoreState.readReg_hidden {c : CoreState} {H : HashState} {J : Option Job} (r : Reg) (hd : c.DVALID = false)
    (hJ : J.isSome = c.JOB.isSome) : { c with H := H, JOB := J }.readReg r = c.readReg r := by
  cases r with
  | status => simp [CoreState.readReg, CoreState.status, CoreState.busy, hJ]
  | digest k => simp [CoreState.readReg, hd]
  | _ => rfl

/-- Settles O59: a step does the same under other pipeline registers, and while DVALID = 0 no register shows H or the content
of JOB. -/
theorem hiddenStateIsUnobservable : Obligations.HiddenStateIsUnobservable := by
  refine ⟨fun s t u p h h' => ?_, fun c H r hd => CoreState.readReg_hidden r hd rfl,
    fun c H j j' r hd hj => CoreState.readReg_hidden r hd (by simp [hj])⟩
  obtain ⟨q, hq⟩ := step_withPipe p h
  obtain rfl : t.withPipe q = u := by simpa using hq.symm.trans h'
  exact ⟨rfl, rfl, rfl, rfl⟩

/-! ## The pipeline after a step -/

/-- A line leaves the pipeline: its outcome is the same when the pipeline it began with is put back. -/
theorem performLine_pipe {l : Line} {s t : State} (h : performLine l s = .next t) : t.pipe = s.pipe := by
  have hp : performLine l s = andThen (performLine l s) (State.withPipe s.pipe) :=
    performLine_withPipe l s.pipe s
  rw [h, andThen_next] at hp
  have ht : t = t.withPipe s.pipe := Host.Outcome.next.inj hp
  rw [ht, State.withPipe_pipe]

theorem step_ROUND_le {s t : State} (hr : s.pipe.ROUND.toNat ≤ 64) (h : step s = .next t) :
    t.pipe.ROUND.toNat ≤ 64 := by
  rcases step_cases h with ⟨-, rfl⟩ | ⟨-, -, rfl⟩ | ⟨-, -, rfl⟩ | ⟨-, l, rest, -, hl⟩ | ⟨-, hold, rest, -, rfl⟩
  · exact hr
  · exact State.complete_ROUND_le hr
  · exact hr
  · rw [performLine_pipe hl]; exact hr
  · exact Nat.zero_le 64

/-- Settles O54: a block's run leaves ROUND at 64, a cycle-level round step runs below 64 only, and reset and the load step
set ROUND to 0. -/
theorem roundCounterStaysInRange : Obligations.RoundCounterStaysInRange :=
  ⟨fun _ _ => step_ROUND_le, fun _ => CycleEngine.next_ROUND_le⟩

end Sys2Proof.Machine

/-! SUPPORT. The window as memory (20_memory.md R70, R71, R77, R83): which bus addresses it has, what an access of illegal form
does, a transaction performed twice, and a transaction met by a job in flight. -/
namespace Sys2Proof.Machine

/-! ## Bus addresses -/

theorem windowOffset_add (off : Offset) : windowOffset (Config.baseAddr + off.toNat) = some off := by
  have hoff : off.toNat < 2 ^ 7 := off.isLt
  rw [windowOffset, if_pos (by omega), Nat.add_sub_cancel_left, BitVec.ofNat_toNat, BitVec.setWidth_eq]

theorem windowOffset_of_outside {addr : Nat} (h : addr < Config.baseAddr ∨ Config.baseAddr + 0x7F < addr) :
    windowOffset addr = none := by
  rw [windowOffset, if_neg (by omega)]

theorem BusRequest.line_of_outside {q : BusRequest} (h : windowOffset q.addr = none) : q.line = none := by
  cases q with
  | read addr n => exact congrArg (Option.map _) h
  | write addr n v => exact congrArg (Option.map _) h

/-- Settles O27. -/
theorem windowAddresses : Obligations.WindowAddresses := by
  refine ⟨windowOffset_add, fun q s h => ?_⟩
  rw [State.present, BusRequest.line_of_outside (windowOffset_of_outside h)]

/-! ## The form of a transaction -/

theorem accessLegal_false_iff (off : Offset) (n : Nat) : accessLegal off n = false ↔ n ≠ 4 ∨ off.toNat % 4 ≠ 0 := by
  rw [← Bool.not_eq_true, accessLegal_iff, not_and_or]

theorem access_of_illegal {a : Access} (h : accessLegal a.off a.size = false) (s : State) :
    access a s = (.error, .next (s.raise .acc)) := by
  cases a with
  | read off n =>
    have hread : memRead off n s = (.error, s.raise .acc) := if_neg (ne_true_of_eq_false h)
    rw [access, hread]
  | write off n v => exact if_neg (ne_true_of_eq_false h)

/-- A write of legal form is the 4-byte write at its register's offset. -/
theorem write_eq_of_legal {off : Offset} {n : Nat} {r : Reg} (h : accessLegal off n = true)
    (hreg : Reg.ofOffset off = r) (v : Word) : Access.write off n v = .write r.off 4 v := by
  obtain ⟨rfl, haligned⟩ := (accessLegal_iff off n).1 h
  rw [← hreg, Reg.off_ofOffset off haligned]

/-- Settles O22. -/
theorem illegalAccessOnlySetsErrAcc : Obligations.IllegalAccessOnlySetsErrAcc :=
  fun a s h => access_of_illegal ((accessLegal_false_iff a.off a.size).2 h) s

/-! ## A transaction performed twice -/

theorem State.raise_raise (e : Err) (s : State) : (s.raise e).raise e = s.raise e := by cases e <;> rfl

theorem State.setMsg_setMsg (j : Fin 16) (v : Word) (s : State) : (s.setMsg j v).setMsg j v = s.setMsg j v := by
  simp [State.setMsg]

/-- Settles O25: outside CMD a transaction raises ERR_ACC, sets a MSG word or changes nothing, and doing so twice is doing
it once. -/
theorem onlyCommandsAreNotIdempotent : Obligations.OnlyCommandsAreNotIdempotent := by
  refine ⟨fun a s t hplain h => ?_, fun off s haligned => ?_⟩
  · rcases access_cases h with
      ⟨hform, -, rfl⟩ | ⟨hform, rfl | ⟨off, n, w, rfl, hreg, -⟩ | ⟨off, n, v, j, rfl, hreg, rfl⟩⟩
    · rw [access_of_illegal hform, access_of_illegal hform, State.raise_raise]
    · exact Prod.ext rfl h
    · exact absurd (write_eq_of_legal hform hreg w) (hplain w)
    · have hwrite : Access.write off n v = .write (Reg.msg j).off 4 v := write_eq_of_legal hform hreg v
      rw [hwrite, access_write_off, access_write_off, writeReg, State.setMsg_setMsg]
  · rw [← Reg.off_ofOffset off haligned, access_read_off]

/-! ## A transaction met by a job in flight -/

/-- The two states have the same job, the same schedule of its completion, and the same of the record that the completion
reads or keeps beside MSG and the error bits. -/
structure State.SameJob (s t : State) : Prop where
  JOB       : t.core.JOB = s.core.JOB
  H         : t.core.H = s.core.H
  LEN       : t.core.LEN = s.core.LEN
  DVALID    : t.core.DVALID = s.core.DVALID
  FINALIZED : t.core.FINALIZED = s.core.FINALIZED
  turns     : t.turns = s.turns

theorem State.SameJob.of_sameData {s t : State} (data : s.core.SameData t.core) (turns : t.turns = s.turns) :
    s.SameJob t :=
  ⟨data.JOB, data.H, data.LEN, data.DVALID, data.FINALIZED, turns⟩

theorem State.sameJob_raise (e : Err) (s : State) : s.SameJob (s.raise e) :=
  .of_sameData (CoreState.sameData_raise e s.core) rfl

theorem State.sameJob_setMsg (j : Fin 16) (v : Word) (s : State) : s.SameJob (s.setMsg j v) :=
  ⟨rfl, rfl, rfl, rfl, rfl, rfl⟩

/-- With a job in flight every command but CLRERR is dropped (45_commands.md R244). -/
theorem exec_of_busy {i : Instr} {s : State} (hi : i ≠ .clrerr) (hb : s.core.busy = true) :
    exec i s = .next (s.raise .busy) := by
  cases i with
  | clrerr => exact absurd rfl hi
  | _ => exact whenIdle_of_busy s _ hb

theorem command_sameJob {w : Word} {s t : State} (hb : s.core.busy = true) (h : command w s = .next t) :
    s.SameJob t := by
  unfold command at h
  split at h
  next =>
    obtain rfl : s.raise .cmd = t := Host.Outcome.next.inj h
    exact s.sameJob_raise .cmd
  next i _ =>
    by_cases hi : i = .clrerr
    · subst hi
      obtain rfl := execClrerr_cases h
      exact .of_sameData (CoreState.sameData_clearErrors s.core) rfl
    · obtain rfl : s.raise .busy = t := Host.Outcome.next.inj ((exec_of_busy hi hb).symm.trans h)
      exact s.sameJob_raise .busy

theorem access_sameJob {a : Access} {s t : State} (hb : s.core.busy = true) (h : (access a s).2 = .next t) :
    s.SameJob t := by
  rcases access_cases h with
    ⟨-, -, rfl⟩ | ⟨-, rfl | ⟨off, n, w, -, -, hcommand⟩ | ⟨off, n, v, j, -, -, rfl⟩⟩
  · exact s.sameJob_raise .acc
  · exact .of_sameData (.refl _) rfl
  · exact command_sameJob hb hcommand
  · exact s.sameJob_setMsg j v

/-- The completion reads no more than `SameJob` fixes. -/
theorem State.SameJob.complete {s t : State} (h : s.SameJob t) {j : Job} (hj : s.core.JOB = some j) :
    t.complete.core.H = s.complete.core.H ∧ t.complete.core.LEN = s.complete.core.LEN ∧
    t.complete.core.DVALID = s.complete.core.DVALID := by
  rw [State.complete_core s j hj, State.complete_core t j (h.JOB.trans hj)]
  simp [h.H, h.DVALID]

/-- Settles O30: a transaction met by a job keeps all that the job's completion reads. -/
theorem transactionsDoNotDisturbTheJob : Obligations.TransactionsDoNotDisturbTheJob := by
  intro a s t j hj h
  have same : s.SameJob t := access_sameJob ((busy_iff s.core).2 ⟨j, hj⟩) h
  exact ⟨same.JOB.trans hj, same.H, same.LEN, same.DVALID, same.FINALIZED, same.turns, same.complete hj⟩

end Sys2Proof.Machine

/-! SUPPORT. The encoding of commands (30_encoding.md section 1): the fields of format C, the decoder as an equivalence, and
which words are legal. -/
namespace Sys2Proof

/-! ## The fields of a format C word -/

theorem formatC_getLsbD (rsv : BitVec 22) (nbytes : BitVec 6) (op : BitVec 4) (i : Nat) :
    (formatC rsv nbytes op).getLsbD i =
      if i < 4 then op.getLsbD i else if i - 4 < 6 then nbytes.getLsbD (i - 4) else rsv.getLsbD (i - 4 - 6) := by
  rw [formatC, BitVec.getLsbD_cast, BitVec.getLsbD_append, BitVec.getLsbD_append]

@[simp] theorem opField_formatC (rsv : BitVec 22) (nbytes : BitVec 6) (op : BitVec 4) :
    opField (formatC rsv nbytes op) = op := by
  apply BitVec.eq_of_getLsbD_eq
  intro i hi
  rw [opField, BitVec.getLsbD_extractLsb', formatC_getLsbD]
  simp [hi]

@[simp] theorem nbytesField_formatC (rsv : BitVec 22) (nbytes : BitVec 6) (op : BitVec 4) :
    nbytesField (formatC rsv nbytes op) = nbytes := by
  apply BitVec.eq_of_getLsbD_eq
  intro i hi
  rw [nbytesField, BitVec.getLsbD_extractLsb', formatC_getLsbD]
  simp [hi]

@[simp] theorem rsvField_formatC (rsv : BitVec 22) (nbytes : BitVec 6) (op : BitVec 4) :
    rsvField (formatC rsv nbytes op) = rsv := by
  apply BitVec.eq_of_getLsbD_eq
  intro i hi
  have hrsv : 10 + i - 4 - 6 = i := by omega
  rw [rsvField, BitVec.getLsbD_extractLsb', formatC_getLsbD, if_neg (by omega), if_neg (by omega), hrsv]
  simp [hi]

/-! ## Decoding -/

theorem Instr.wellFormed_final_iff (n : Nat) : (Instr.final n).WellFormed ↔ n ≤ 63 := by
  simp [Instr.WellFormed, Instr.wellFormed]

/-- The opcode map (R101, R102), read in both directions: `decode_cases` with its converse. -/
theorem decode_eq_ok_iff {w : Word} {i : Instr} :
    decode w = .ok i ↔ rsvField w = 0 ∧
      ((opField w = 1 ∧ nbytesField w = 0 ∧ i = .init) ∨ (opField w = 2 ∧ nbytesField w = 0 ∧ i = .update) ∨
        (opField w = 3 ∧ i = .final (nbytesField w).toNat) ∨ (opField w = 4 ∧ nbytesField w = 0 ∧ i = .clrerr)) := by
  refine ⟨decode_cases, fun ⟨hrsv, h⟩ => ?_⟩
  rw [decode, if_pos hrsv]
  rcases h with ⟨hop, hn, rfl⟩ | ⟨hop, hn, rfl⟩ | ⟨hop, rfl⟩ | ⟨hop, hn, rfl⟩ <;> rw [hop]
  · exact if_pos hn
  · exact if_pos hn
  · rfl
  · exact if_pos hn

/-- Settles O5: the fields of the encoder's word are those the opcode map asks for. -/
theorem decodeEncodeRoundTrip : Obligations.DecodeEncodeRoundTrip := by
  intro i hwf
  rw [decode_eq_ok_iff]
  cases i with
  | init => simp [encode]
  | update => simp [encode]
  | final n =>
    have hn : n % 64 = n := Nat.mod_eq_of_lt (Nat.lt_succ_of_le ((Instr.wellFormed_final_iff n).1 hwf))
    simp [encode, hn]
  | clrerr => simp [encode]

/-- Settles O6: a word that decodes has the fields of its command's word, and a word is its fields. -/
theorem encodeDecodeRoundTrip : Obligations.EncodeDecodeRoundTrip := by
  intro w i h
  obtain ⟨hrsv, h⟩ := decode_cases h
  have hw : formatC 0 (nbytesField w) (opField w) = w := hrsv ▸ formatC_fields w
  rcases h with ⟨hop, hn, rfl⟩ | ⟨hop, hn, rfl⟩ | ⟨hop, rfl⟩ | ⟨hop, hn, rfl⟩
  · exact ⟨rfl, by rw [encode, ← hw, hop, hn]⟩
  · exact ⟨rfl, by rw [encode, ← hw, hop, hn]⟩
  · refine ⟨(Instr.wellFormed_final_iff _).2 (Nat.le_of_lt_succ (nbytesField w).isLt), ?_⟩
    rw [encode, BitVec.ofNat_toNat, BitVec.setWidth_eq, ← hop, hw]
  · exact ⟨rfl, by rw [encode, ← hw, hop, hn]⟩

/-- Settles O8. -/
theorem wordsFromTheOpcodeMap : Obligations.WordsFromTheOpcodeMap := by
  unfold Obligations.WordsFromTheOpcodeMap
  decide

/-! ## Legality -/

theorem legal_iff_fields (w : Word) :
    legal w = true ↔ rsvField w = 0 ∧
      (((opField w = 1 ∨ opField w = 2 ∨ opField w = 4) ∧ nbytesField w = 0) ∨ opField w = 3) := by
  simp [legal, or_assoc]

/-- `legal(w)` (R103) as arithmetic on the word. -/
theorem legal_iff_arith (w : Word) :
    legal w = true ↔ w.toNat / 1024 = 0 ∧
      (((w.toNat % 16 = 1 ∨ w.toNat % 16 = 2 ∨ w.toNat % 16 = 4) ∧ w.toNat / 16 % 64 = 0) ∨ w.toNat % 16 = 3) := by
  obtain ⟨hop, hnbytes, hrsv⟩ := fields_toNat w
  simp [legal_iff_fields, BitVec.toNat_eq, hop, hnbytes, hrsv]

theorem legal_iff_decodes (w : Word) : legal w = true ↔ ∃ i, decode w = .ok i := by
  simp only [legal_iff_fields, decode_eq_ok_iff]
  constructor
  · rintro ⟨hrsv, ⟨hop | hop | hop, hn⟩ | hop⟩
    · exact ⟨.init, hrsv, .inl ⟨hop, hn, rfl⟩⟩
    · exact ⟨.update, hrsv, .inr (.inl ⟨hop, hn, rfl⟩)⟩
    · exact ⟨.clrerr, hrsv, .inr (.inr (.inr ⟨hop, hn, rfl⟩))⟩
    · exact ⟨.final _, hrsv, .inr (.inr (.inl ⟨hop, rfl⟩))⟩
  · rintro ⟨i, hrsv, ⟨hop, hn, -⟩ | ⟨hop, hn, -⟩ | ⟨hop, -⟩ | ⟨hop, hn, -⟩⟩
    · exact ⟨hrsv, .inl ⟨.inl hop, hn⟩⟩
    · exact ⟨hrsv, .inl ⟨.inr (.inl hop), hn⟩⟩
    · exact ⟨hrsv, .inr hop⟩
    · exact ⟨hrsv, .inl ⟨.inr (.inr hop), hn⟩⟩

/-- The legal words as numbers, FINAL n being 3 + 16 * n (R103). -/
theorem legal_iff_mem (w : Word) :
    legal w = true ↔ w.toNat ∈ [1, 2, 4] ++ (List.range 64).map (fun n => 3 + 16 * n) := by
  simp only [legal_iff_arith, List.mem_append, List.mem_cons, List.not_mem_nil, or_false, List.mem_map, List.mem_range]
  constructor
  · rintro ⟨hrsv, ⟨hop, hn⟩ | hop⟩
    · exact .inl (by omega)
    · exact .inr ⟨w.toNat / 16, by omega, by omega⟩
  · rintro (h | ⟨n, hn, h⟩) <;> omega

theorem Machine.command_of_illegal {w : Word} (h : legal w = false) (s : Machine.State) :
    Machine.command w s = .next (s.raise .cmd) := by
  unfold Machine.command
  split
  next => rfl
  next i hi => simp [(legal_iff_decodes w).2 ⟨i, hi⟩] at h

/-- Settles O7: the three forms of legality agree, and the map n ↦ 3 + 16 * n meets no number twice, nor 1, 2 or 4. -/
theorem legalWordsExactly : Obligations.LegalWordsExactly := by
  refine ⟨legal_iff_arith, legal_iff_decodes, fun w s h => Machine.command_of_illegal h s, legal_iff_mem, ?_, rfl⟩
  have hinj : Function.Injective fun n : Nat => 3 + 16 * n := fun a b (h : 3 + 16 * a = 3 + 16 * b) => by omega
  refine List.Nodup.append (by decide) (List.nodup_range.map hinj) fun x hx hx' => ?_
  obtain ⟨n, -, rfl⟩ := List.mem_map.1 hx'
  simp at hx
  omega

end Sys2Proof

/-! SUPPORT. How bytes and words stand in a block, in the length field and in the digest (30_encoding.md R104 to R106, R111). -/
namespace Sys2Proof.Machine

/-! ## Sixteen MSG writes -/

/-- The MSG writes of the words of `b` at the indices `js`, in order. -/
def writeMsgs (b : Block) (js : List (Fin 16)) (s : State) : Host.Outcome State Fault Refusal :=
  js.foldl (fun o j => chain o fun u => (access (.write (Reg.msg j).off 4 b[j]) u).2) (.next s)

/-- The block `M` with the words of `b` at the indices `js`. -/
def overwrite (b : Block) (js : List (Fin 16)) (M : Block) : Block :=
  js.foldl (fun N (j : Fin 16) => N.set j b[j]) M

theorem overwrite_getElem (b : Block) (js : List (Fin 16)) (M : Block) (k : Fin 16) :
    (overwrite b js M)[k] = if k ∈ js then b[k] else M[k] := by
  induction js generalizing M with
  | nil => rfl
  | cons j js ih =>
    rw [overwrite, List.foldl_cons, ← overwrite, ih]
    by_cases hk : k = j
    · subst hk; simp
    · have hj : j.val ≠ k.val := fun e => hk (Fin.ext e.symm)
      simp [hk, Vector.getElem_set_ne, hj]

theorem overwrite_all {b : Block} {js : List (Fin 16)} (all : ∀ k, k ∈ js) (M : Block) : overwrite b js M = b := by
  refine Vector.ext fun k hk => ?_
  have h := overwrite_getElem b js M ⟨k, hk⟩
  rwa [if_pos (all _)] at h

/-- Every MSG write is accepted and sets its word, so together they are one `loadMsg`. -/
theorem writeMsgs_eq (b : Block) (js : List (Fin 16)) (s : State) :
    writeMsgs b js s = .next (s.loadMsg (overwrite b js s.core.MSG)) := by
  induction js generalizing s with
  | nil => rfl
  | cons j js ih =>
    have hfirst : writeMsgs b (j :: js) s = writeMsgs b js (s.setMsg j b[j]) := by
      rw [writeMsgs, List.foldl_cons, chain, access_write_off]; rfl
    rw [hfirst, ih]; rfl

/-- Settles O26: sixteen words set at sixteen indices are the whole block. -/
theorem sixteenWritesLoadABlock : Obligations.SixteenWritesLoadABlock := by
  intro b s
  have h := writeMsgs_eq b msgIndices s
  rwa [overwrite_all (by decide)] at h

/-! ## The length field -/

/-- Four bytes next to each other in a 64-bit value are the word they span. -/
theorem be32_extractLsb' (v : Word64) (k : Nat) :
    be32 (v.extractLsb' (k + 24) 8) (v.extractLsb' (k + 16) 8) (v.extractLsb' (k + 8) 8) (v.extractLsb' k 8) =
      v.extractLsb' k 32 := by
  unfold be32
  rw [BitVec.extractLsb'_append_extractLsb'_eq_extractLsb' (by omega),
    BitVec.extractLsb'_append_extractLsb'_eq_extractLsb' (by omega),
    BitVec.extractLsb'_append_extractLsb'_eq_extractLsb' (by omega)]

/-- The last eight of 64 bytes are words 14 and 15 of their block. -/
theorem packBlock_append_be64 {bs : List Byte} (h : bs.length = 56) (v : Word64) :
    (packBlock (bs ++ be64 v))[14] = v.extractLsb' 32 32 ∧ (packBlock (bs ++ be64 v))[15] = v.extractLsb' 0 32 := by
  have byte (i : Nat) : (bs ++ be64 v).getD (56 + i) 0 = (be64 v).getD i 0 := by
    rw [List.getD_append_right _ _ _ _ (by omega), h, Nat.add_sub_cancel_left]
  have word (j : Fin 16) (k : Nat) (hj : 4 * j.val = 56 + k) : (packBlock (bs ++ be64 v))[j] =
      be32 ((be64 v).getD k 0) ((be64 v).getD (k + 1) 0) ((be64 v).getD (k + 2) 0) ((be64 v).getD (k + 3) 0) := by
    simp only [packBlock, blockOf_getElem, hj, Nat.add_assoc, byte]
  exact ⟨(word 14 0 rfl).trans (be32_extractLsb' v 32), (word 15 4 rfl).trans (be32_extractLsb' v 0)⟩

/-- The padded tail of `padtail` (41_padding.md R153) before its length field. -/
def padtailHead (M : Block) (n : Nat) : List Byte :=
  (blockBytes M).take n ++ 0x80 :: List.replicate (padZeros n) 0

theorem padtailBytes_eq (M : Block) (n : Nat) (ltot : Word64) :
    padtailBytes M n ltot = padtailHead M n ++ be64 (8 * ltot) := by
  simp [padtailBytes, padtailHead, padSuffix]

theorem padtailHead_length (M : Block) {n : Nat} (hn : n ≤ 63) :
    (padtailHead M n).length = if n ≤ 55 then 56 else 120 := by
  have htake : ((blockBytes M).take n).length = n := by rw [List.length_take, blockBytes_length]; omega
  rw [padtailHead, List.length_append, htake, List.length_cons, List.length_replicate, padZeros]
  split <;> omega

/-- The last block of the padding unit ends with the length field (41_padding.md R153). -/
theorem padtail_getLast? (M : Block) {n : Nat} (ltot : Word64) (hn : n ≤ 63) :
    ∃ bs : List Byte, bs.length = 56 ∧ (padtail M n ltot).getLast? = some (packBlock (bs ++ be64 (8 * ltot))) := by
  have hlen := padtailHead_length M hn
  simp only [padtail, padtailBytes_eq]
  split at hlen
  next h =>
    refine ⟨padtailHead M n, hlen, ?_⟩
    rw [if_pos h, List.take_of_length_le (by simp [hlen])]; rfl
  next h =>
    refine ⟨(padtailHead M n).drop 64, by simp [hlen], ?_⟩
    have hsecond : ((padtailHead M n ++ be64 (8 * ltot)).drop 64).take 64 =
        (padtailHead M n).drop 64 ++ be64 (8 * ltot) := by
      rw [List.drop_append_of_le_length (by omega), List.take_of_length_le (by simp [hlen])]
    rw [if_neg h, hsecond]; rfl

/-- Settles O43. -/
theorem lengthFieldWords : Obligations.LengthFieldWords := by
  intro M n ltot hn
  obtain ⟨bs, hlen, hlast⟩ := padtail_getLast? M ltot hn
  exact ⟨_, hlast, packBlock_append_be64 hlen (8 * ltot)⟩

/-! ## The digest bytes -/

theorem bytesBe32_getD (x : Word) {m : Nat} (h : m < 4) : (bytesBe32 x).getD m 0 = x.extractLsb' (24 - 8 * m) 8 := by
  obtain rfl | rfl | rfl | rfl : m = 0 ∨ m = 1 ∨ m = 2 ∨ m = 3 := by omega
  all_goals rfl

theorem flatMap_bytesBe32_getD (ws : List Word) (k : Nat) {m : Nat} (h : m < 4) :
    (ws.flatMap bytesBe32).getD (4 * k + m) 0 = (ws.getD k 0).extractLsb' (24 - 8 * m) 8 := by
  induction ws generalizing k with
  | nil => simp
  | cons w ws ih =>
    rw [List.flatMap_cons]
    cases k with
    | zero => rw [List.getD_append _ _ _ _ (by simpa using h), Nat.mul_zero, Nat.zero_add, bytesBe32_getD w h]; rfl
    | succ k =>
      have hi : 4 * (k + 1) + m - 4 = 4 * k + m := by omega
      rw [List.getD_append_right _ _ _ _ (by simp; omega), bytesBe32_length, hi, ih, List.getD_cons_succ]

theorem hashState_self (H : HashState) : (hashState fun k => H[k]) = H :=
  Vector.ext fun k hk => hashState_getElem (fun k => H[k]) ⟨k, hk⟩

theorem CoreState.readReg_digest_of_dvalid {c : CoreState} (h : c.DVALID = true) (k : Fin 8) :
    c.readReg (.digest k) = c.H[k] :=
  if_pos h

/-- Settles O45: the serializer is the bytes of H's words one after the other, and the digest registers show H. -/
theorem serializeLayout : Obligations.SerializeLayout := by
  refine ⟨fun H => ⟨by simp [serialize], fun k m => ?_⟩, fun c hd => ⟨c.readReg_digest_of_dvalid hd, ?_⟩⟩
  · rw [serialize, flatMap_bytesBe32_getD _ _ m.isLt]
    simp
  · simp only [CoreState.digestBytes, CoreState.readReg_digest_of_dvalid hd, hashState_self, serialize]

end Sys2Proof.Machine

/-! SUPPORT. The lines that read a register (30_encoding.md R110): what the host's bookkeeping records of a read, and the
host's reaction to the value. -/
namespace Sys2Proof.Machine

@[simp] theorem noted_inputs (a : Access) (r : Response) (before after : State) :
    (noted a r before after).host.inputs = after.host.inputs := rfl

@[simp] theorem noted_trace (a : Access) (r : Response) (before after : State) :
    (noted a r before after).host.trace = (a, r) :: after.host.trace := rfl

@[simp] theorem noted_expectFailed (a : Access) (r : Response) (before after : State) :
    (noted a r before after).host.expectFailed = after.host.expectFailed := rfl

@[simp] theorem afterLine_trace (l : Line) (before s : State) : (afterLine l before s).host.trace = s.host.trace := by
  cases l with
  | poll r mask value => simp only [afterLine]; split <;> rfl
  | expect r imm => simp only [afterLine]; split <;> rfl
  | _ => rfl

theorem afterLine_poll_inputs (r : Reg) (mask value : Word) (before s : State) :
    (afterLine (.poll r mask value) before s).host.inputs =
      if before.core.readReg r &&& mask = value then s.host.inputs else .line (.poll r mask value) :: s.host.inputs := by
  simp only [afterLine]; split <;> rfl

theorem afterLine_expect_inputs (r : Reg) (imm : Word) (before s : State) :
    (afterLine (.expect r imm) before s).host.inputs = s.host.inputs := by
  simp only [afterLine]; split <;> rfl

theorem afterLine_expect_expectFailed (r : Reg) (imm : Word) (before s : State) :
    (afterLine (.expect r imm) before s).host.expectFailed =
      (s.host.expectFailed || decide (before.core.readReg r ≠ imm)) := by
  simp only [afterLine]; split <;> simp [*]

/-- On the host's turn a line that reads a register leaves the core, records the value, and the host reacts to it. -/
theorem step_of_registerRead {s : State} {l : Line} {r : Reg} {rest : List Input} (moves : s.hostMoves = true)
    (next : s.host.inputs = .line l :: rest) (read : l.access = .read r.off 4) :
    step s = .next (afterLine l (s.takeInput rest)
      (noted (.read r.off 4) (.data (s.core.readReg r)) (s.takeInput rest) (s.takeInput rest))) := by
  rw [step_of_line moves next, performLine, transact, read, access_read_off]; rfl

/-- Settles O48. -/
theorem pollRepeatsAndExpectCompares : Obligations.PollRepeatsAndExpectCompares := by
  intro s r mask value rest moves
  constructor
  · intro next
    exact ⟨_, step_of_registerRead moves next rfl, by simp, by simp, afterLine_poll_inputs r mask value _ _⟩
  · intro next
    exact ⟨_, step_of_registerRead moves next rfl, by simp, afterLine_expect_inputs r value _ _, by simp,
      afterLine_expect_expectFailed r value _ _⟩

end Sys2Proof.Machine

/-! The word operations of 40_word_ops.md. R130: `add32` as a chain of wrapping adders, from which any order and
association follow. R131: the rotation, read bit by bit. -/
namespace Sys2Proof.Machine

theorem add32_nil : add32 [] = 0#32 := rfl

theorem add32_cons (x : Word) (xs : List Word) : add32 (x :: xs) = x + add32 xs := by
  simp [add32, BitVec.ofNat_add]

theorem add32_pair (x y : Word) : add32 [x, y] = x + y := by
  rw [add32_cons, add32_cons, add32_nil, BitVec.add_zero]

theorem add32_perm {xs ys : List Word} (h : xs.Perm ys) : add32 xs = add32 ys :=
  congrArg (BitVec.ofNat 32) (h.map BitVec.toNat).sum_eq

theorem add32_assoc (x y : Word) (zs : List Word) : add32 (x :: y :: zs) = add32 (add32 [x, y] :: zs) := by
  rw [add32_pair, add32_cons, add32_cons, add32_cons, BitVec.add_assoc]

/-- Settles O33: `add32` is a chain of wrapping adders (`add32_cons`), so two operands may be added first. -/
theorem add32AnyOrder : Obligations.Add32AnyOrder :=
  ⟨add32_toNat, fun _ _ => add32_perm, add32_assoc, add32_pair⟩

/-- Below position 32 - n the right shift supplies the bit, from there on the bits that reenter at the high end. -/
theorem rotr_getLsbD (x : Word) (n : Nat) {i : Nat} (hi : i < 32) :
    (rotr x n).getLsbD i = x.getLsbD ((i + n) % 32) := by
  rw [rotr, BitVec.getLsbD_or, BitVec.getLsbD_ushiftRight, BitVec.getLsbD_shiftLeft]
  by_cases low : i < 32 - n % 32
  · have source : (i + n) % 32 = n % 32 + i := by omega
    simp [low, source]
  · have source : (i + n) % 32 = i - (32 - n % 32) := by omega
    have shiftedOut : x.getLsbD (n % 32 + i) = false := BitVec.getLsbD_of_ge _ _ (by omega)
    simp [hi, low, source, shiftedOut]

theorem rotr_zero (x : Word) : rotr x 0 = x :=
  BitVec.eq_of_getLsbD_eq fun i hi => by rw [rotr_getLsbD x 0 hi, Nat.add_zero, Nat.mod_eq_of_lt hi]

theorem shr_toNat (x : Word) (n : Nat) : (shr x n).toNat = x.toNat / 2 ^ n := by
  rw [shr, BitVec.toNat_ushiftRight, Nat.shiftRight_eq_div_pow]

/-- Settles O34, from the bit formula of the rotation (`rotr_getLsbD`), whose case n = 0 is the identity. -/
theorem rotateAndShiftBits : Obligations.RotateAndShiftBits :=
  ⟨fun x n _ => rotr_getLsbD x n, rotr_zero, shr_toNat⟩

end Sys2Proof.Machine

/-! SUPPORT. The padding unit (41_padding.md): what packing keeps of a byte list, how a byte list falls into blocks, and that
the blocks of the padding unit are the blocks of its padded tail. -/
namespace Sys2Proof.Machine

/-! ## Packing bytes and unpacking them -/

/-- Unpacking a packed list gives its first 64 bytes, with zeros where the list has none (30_encoding.md R104). -/
theorem blockBytes_packBlock (bs : List Byte) :
    blockBytes (packBlock bs) = (List.range 64).map fun i => bs.getD i 0 := by
  simp only [blockBytes, packBlock, blockOf, Vector.toList_mk, List.flatMap_cons, List.flatMap_nil, bytesBe32_be32]
  rfl

theorem take_blockBytes_packBlock {bs : List Byte} (h : bs.length ≤ 64) :
    (blockBytes (packBlock bs)).take bs.length = bs := by
  refine List.ext_getElem (by simpa using h) fun i hi hi' => ?_
  simp [blockBytes_packBlock, hi']

theorem blockBytes_packBlock_of_length {bs : List Byte} (h : bs.length = 64) : blockBytes (packBlock bs) = bs := by
  have hfirst := take_blockBytes_packBlock h.le
  rwa [List.take_of_length_le (by simp [h])] at hfirst

/-- A block holds the first 64 bytes only. -/
theorem packBlock_take (bs : List Byte) : packBlock (bs.take 64) = packBlock bs := by
  have byte {i : Nat} (hi : i < 64) : (bs.take 64).getD i 0 = bs.getD i 0 := by
    simp only [List.getD_eq_getElem?_getD, List.getElem?_take_of_lt hi]
  refine congrArg blockOf (funext fun j => ?_)
  rw [byte (by omega), byte (by omega), byte (by omega), byte (by omega)]

/-! ## The blocks of a byte list -/

theorem blocksOf_length (bs : List Byte) : (blocksOf bs).length = bs.length / 64 := by
  simp [blocksOf]

theorem blocksOf_of_length_lt {bs : List Byte} (h : bs.length < 64) : blocksOf bs = [] := by
  rw [← List.length_eq_zero_iff, blocksOf_length, Nat.div_eq_of_lt h]

/-- The first block and the blocks of the rest. -/
theorem blocksOf_eq_cons {bs : List Byte} (h : 64 ≤ bs.length) :
    blocksOf bs = packBlock (bs.take 64) :: blocksOf (bs.drop 64) := by
  have hcount : bs.length / 64 = (bs.length - 64) / 64 + 1 := by omega
  rw [blocksOf, blocksOf, hcount, List.range_succ_eq_map, List.length_drop, packBlock_take]
  simp [List.drop_drop, Nat.mul_add, Nat.add_comm]

theorem lastBytes_length (bs : List Byte) : (lastBytes bs).length = bs.length % 64 := by
  rw [lastBytes, List.length_drop]; omega

theorem lastBytes_of_length_lt {bs : List Byte} (h : bs.length < 64) : lastBytes bs = bs := by
  rw [lastBytes, Nat.div_eq_of_lt h]; rfl

theorem lastBytes_drop {bs : List Byte} (h : 64 ≤ bs.length) : lastBytes (bs.drop 64) = lastBytes bs := by
  rw [lastBytes, lastBytes, List.drop_drop, List.length_drop]
  congr 1; omega

/-- What follows a byte list is packed together with the bytes behind the list's full blocks. -/
theorem blocksOf_append (bs cs : List Byte) : blocksOf (bs ++ cs) = blocksOf bs ++ blocksOf (lastBytes bs ++ cs) := by
  induction hk : bs.length / 64 generalizing bs with
  | zero =>
    have hshort : bs.length < 64 := by omega
    rw [blocksOf_of_length_lt hshort, lastBytes_of_length_lt hshort, List.nil_append]
  | succ k ih =>
    have hfirst : 64 ≤ bs.length := by omega
    have hrest := ih (bs.drop 64) (by rw [List.length_drop]; omega)
    rw [lastBytes_drop hfirst] at hrest
    rw [blocksOf_eq_cons hfirst, blocksOf_eq_cons (by simp; omega), List.take_append_of_le_length hfirst,
      List.drop_append_of_le_length hfirst, hrest, List.cons_append]

theorem flatMap_blockBytes_blocksOf {k : Nat} {bs : List Byte} (h : bs.length = 64 * k) :
    (blocksOf bs).flatMap blockBytes = bs := by
  induction k generalizing bs with
  | zero =>
    obtain rfl := List.eq_nil_of_length_eq_zero h
    rfl
  | succ k ih =>
    rw [blocksOf_eq_cons (by omega), List.flatMap_cons, blockBytes_packBlock_of_length (by simp; omega),
      ih (by simp; omega), List.take_append_drop]

/-! ## The padded message -/

theorem pad_length (m : List Byte) : (pad m).length = 64 * ((m.length + 8) / 64 + 1) := by
  rw [pad, List.length_append, padSuffix_length, padZeros]
  omega

/-- Settles O40: the form is `pad` itself, and the length (`pad_length`) gives the bounds and the block count. -/
theorem paddedMessageForm : Obligations.PaddedMessageForm := by
  intro m
  have hlen := pad_length m
  refine ⟨⟨padZeros m.length, padZeros_eq _, by simp [pad, padSuffix]⟩, ?_, ?_, ?_, ?_⟩
  · omega
  · omega
  · omega
  · rw [blocksOf_length]; omega

/-! ## The padded tail -/

theorem padtailBytes_length (M : Block) {n : Nat} (ltot : Word64) (hn : n ≤ 63) :
    (padtailBytes M n ltot).length = 64 * if n ≤ 55 then 1 else 2 := by
  rw [padtailBytes_eq, List.length_append, padtailHead_length M hn, be64_length]
  split <;> rfl

theorem padtail_eq_blocksOf (M : Block) {n : Nat} (ltot : Word64) (hn : n ≤ 63) :
    padtail M n ltot = blocksOf (padtailBytes M n ltot) := by
  have hlen := padtailBytes_length M ltot hn
  simp only [padtail]
  split at hlen
  next h =>
    rw [if_pos h, blocksOf_eq_cons (by omega), blocksOf_of_length_lt (by simp; omega)]
  next h =>
    rw [if_neg h, blocksOf_eq_cons (by omega), blocksOf_eq_cons (by simp; omega),
      blocksOf_of_length_lt (by simp; omega)]

/-- Settles O41: the blocks are those of the padded tail, which unpack to it. -/
theorem padtailBlocks : Obligations.PadtailBlocks := by
  refine fun M n ltot hn => ⟨⟨padZeros n, padZeros_eq n, ?_⟩, fun h => ?_, fun h => ?_⟩
  · rw [padtail_eq_blocksOf M ltot hn, flatMap_blockBytes_blocksOf (padtailBytes_length M ltot hn)]
    simp [padtailBytes, padSuffix]
  · rw [padtail_length, if_pos h]
  · rw [padtail_length, if_neg (by omega)]

theorem take_blockBytes_congr {M M' : Block} {n : Nat}
    (h : ∀ i, i < n → (blockBytes M).getD i 0 = (blockBytes M').getD i 0) :
    (blockBytes M).take n = (blockBytes M').take n := by
  refine List.ext_getElem (by simp) fun i hi hi' => ?_
  rw [List.length_take, lt_min_iff] at hi hi'
  rw [List.getElem_take, List.getElem_take, ← List.getD_eq_getElem _ 0 hi.2, h i hi.1, List.getD_eq_getElem _ 0 hi'.2]

/-- Settles O42: MSG enters the padded tail through its first n bytes only. -/
theorem padtailIgnoresStaleBytes : Obligations.PadtailIgnoresStaleBytes := by
  intro M M' n ltot h
  have htail : padtailBytes M n ltot = padtailBytes M' n ltot := by
    rw [padtailBytes, padtailBytes, take_blockBytes_congr h]
  rw [padtail, padtail, htail]

/-! ## The padding unit and the padding of a whole message -/

/-- The suffix depends on the length modulo 64 only (41_padding.md R154). -/
theorem padSuffix_mod (L : Nat) (bits : Word64) : padSuffix (L % 64) bits = padSuffix L bits := by
  rw [padSuffix, padSuffix, padZeros, padZeros, Nat.mod_mod]

theorem padtailBytes_lastBytes (m : List Byte) :
    padtailBytes (packBlock (lastBytes m)) (m.length % 64) (BitVec.ofNat 64 m.length) =
      lastBytes m ++ padSuffix m.length (BitVec.ofNat 64 (8 * m.length)) := by
  have hlast : (lastBytes m).length ≤ 64 := by rw [lastBytes_length]; omega
  rw [padtailBytes, padSuffix_mod, ← lastBytes_length, take_blockBytes_packBlock hlast, BitVec.ofNat_mul]
  rfl

/-- Settles O44: the suffix `pad` appends is packed together with the last bytes of the message (`blocksOf_append`), and
that is the padded tail. -/
theorem paddingUnitAgreesWithPad : Obligations.PaddingUnitAgreesWithPad := by
  intro m
  rw [pad, blocksOf_append, padtail_eq_blocksOf _ _ (by omega), padtailBytes_lastBytes]

end Sys2Proof.Machine

/-! The message schedule (42_schedule.md). R170, R171: what each schedule word is, and that it reads earlier words only.
R172, R173, R198, R200: the sigma functions bit by bit. R174: the 16-word window holds the last sixteen schedule words. -/
namespace Sys2Proof.Machine

/-! ## The sigma functions -/

/-- A bit that `shr` takes from beyond bit 31 is 0 (40_word_ops.md R132). -/
theorem shr_getLsbD (x : Word) (n i : Nat) :
    (shr x n).getLsbD i = (decide (i + n < 32) && x.getLsbD (i + n)) := by
  rw [shr, BitVec.getLsbD_ushiftRight, Nat.add_comm n i]
  by_cases inside : i + n < 32
  · simp [inside]
  · simp [inside, BitVec.getLsbD_of_ge x (i + n) (by omega)]

/-- Settles O36: `xor` acts bit by bit, and the bits of its operands are `rotr_getLsbD` and `shr_getLsbD`. -/
theorem sigmaBits : Obligations.SigmaBits := by
  intro x i hi
  simp only [sigma0, sigma1, bigSigma0, bigSigma1, BitVec.getLsbD_xor, rotr_getLsbD x _ hi, shr_getLsbD, and_self]

/-! ## The schedule words -/

/-- Each appended word is the next word of those before it: it reads only words already computed (R171). -/
theorem extendSchedule_getD (n : Nat) {ws : List Word} {i : Nat} (hi : ws.length ≤ i) (hin : i < ws.length + n) :
    (extendSchedule n ws).getD i 0 = nextWord ((extendSchedule n ws).take i) := by
  induction n generalizing ws with
  | zero => omega
  | succ n ih =>
    rw [extendSchedule]
    rcases hi.eq_or_lt with rfl | later
    · obtain ⟨more, happ⟩ := extendSchedule_eq_append n (ws ++ [nextWord ws])
      simp [happ]
    · exact ih (by simpa using later) (by simp; omega)

theorem nextWord_take {ws : List Word} {i : Nat} (h16 : 16 ≤ i) (hi : i ≤ ws.length) :
    nextWord (ws.take i) =
      scheduleSum (ws.getD (i - 16) 0) (ws.getD (i - 15) 0) (ws.getD (i - 7) 0) (ws.getD (i - 2) 0) := by
  have earlier {k : Nat} (hk : k < i) : (ws.take i).getD k 0 = ws.getD k 0 := by
    simp [List.getD_eq_getElem?_getD, List.getElem?_take_of_lt hk]
  rw [nextWord, List.length_take_of_le hi, earlier (by omega), earlier (by omega), earlier (by omega),
    earlier (by omega)]

theorem schedule_getD_of_lt (b : Block) {i : Nat} (hi : i < 16) : (schedule b).getD i 0 = b[i] := by
  obtain ⟨more, happ⟩ := extendSchedule_eq_append 48 b.toList
  rw [schedule, happ, List.getD_append _ _ _ _ (by simpa using hi)]
  simp [hi]

theorem schedule_getD_of_ge (b : Block) {i : Nat} (h16 : 16 ≤ i) (hi : i < 64) :
    (schedule b).getD i 0 = scheduleSum ((schedule b).getD (i - 16) 0) ((schedule b).getD (i - 15) 0)
      ((schedule b).getD (i - 7) 0) ((schedule b).getD (i - 2) 0) := by
  rw [← nextWord_take h16 (by rw [schedule_length]; omega)]
  exact extendSchedule_getD 48 (by simpa using h16) (by simpa using hi)

theorem packBlock_getElem (bs : List Byte) (j : Fin 16) : (packBlock bs)[j] =
    be32 (bs.getD (4 * j) 0) (bs.getD (4 * j + 1) 0) (bs.getD (4 * j + 2) 0) (bs.getD (4 * j + 3) 0) :=
  blockOf_getElem _ j

/-- Settles O37: the block's words stay at the front (`schedule_getD_of_lt`), and each later word is the sum of R171
(`schedule_getD_of_ge`). -/
theorem scheduleWords : Obligations.ScheduleWords := by
  refine ⟨fun b => ⟨schedule_length b, fun j => schedule_getD_of_lt b j.isLt, fun i h16 h63 => ?_⟩, fun B j _ hj => ?_⟩
  · exact schedule_getD_of_ge b h16 (by omega)
  · exact (schedule_getD_of_lt _ hj).trans (packBlock_getElem B ⟨j, hj⟩)

/-! ## The window -/

theorem slot_congr (w : Block) {j k : Nat} (h : j % 16 = k % 16) : w[Fin.ofNat 16 j] = w[Fin.ofNat 16 k] :=
  congrArg (w[·]) (Fin.ext h)

theorem schedule_getD_slot (b : Block) {i : Nat} (h : i < 16) : (schedule b).getD i 0 = b[Fin.ofNat 16 i] := by
  rw [schedule_getD_of_lt b h]
  simp [Nat.mod_eq_of_lt h]

theorem windowStep_of_lt {i : Nat} (h : i < 16) (w : Block) : windowStep i w = (w[Fin.ofNat 16 i], w) :=
  if_pos h

theorem windowStep_word {i : Nat} (h : 16 ≤ i) (w : Block) : (windowStep i w).1 =
    scheduleSum w[Fin.ofNat 16 i] w[Fin.ofNat 16 (i + 1)] w[Fin.ofNat 16 (i + 9)] w[Fin.ofNat 16 (i + 14)] := by
  rw [windowStep, if_neg (by omega)]

/-- From round 16 on the new window has the round's word in the slot of the round, and the old words elsewhere. -/
theorem windowStep_slot {i : Nat} (h : 16 ≤ i) (w : Block) (k : Nat) :
    (windowStep i w).2[Fin.ofNat 16 k] = if i % 16 = k % 16 then (windowStep i w).1 else w[Fin.ofNat 16 k] := by
  rw [windowStep, if_neg (by omega)]
  exact Vector.getElem_set (Fin.isLt _) (Fin.isLt _)

/-- The first sixteen rounds leave the window at the block. -/
theorem windowAt_of_le {i : Nat} (h : i ≤ 16) (b : Block) : windowAt i b = b := by
  induction i with
  | zero => rfl
  | succ i ih => rw [windowAt, ih (by omega), windowStep_of_lt (by omega)]

/-- Before round `i`, of 16 or more, the window `w` has W[i - 16 + d] in slot (i + d) mod 16: R174's "`(i-16), (i-15),
(i-7), (i-2)` are `i, i+1, i+9, i+14` modulo 16" for every distance `d`. -/
def WindowHolds (b : Block) (i : Nat) (w : Block) : Prop :=
  ∀ d, d < 16 → w[Fin.ofNat 16 (i + d)] = (schedule b).getD (i - 16 + d) 0

theorem windowHolds_start (b : Block) : WindowHolds b 16 b := by
  intro d hd
  rw [slot_congr b (Nat.add_mod_left 16 d), ← schedule_getD_slot b hd, Nat.sub_self, Nat.zero_add]

theorem WindowHolds.word {b w : Block} {i : Nat} (h : WindowHolds b i w) (h16 : 16 ≤ i) (hi : i < 64) :
    (windowStep i w).1 = (schedule b).getD i 0 := by
  have oldest : w[Fin.ofNat 16 i] = (schedule b).getD (i - 16) 0 := h 0 (by omega)
  rw [windowStep_word h16, schedule_getD_of_ge b h16 hi, oldest, h 1 (by omega), h 9 (by omega), h 14 (by omega),
    show i - 15 = i - 16 + 1 by omega, show i - 7 = i - 16 + 9 by omega, show i - 2 = i - 16 + 14 by omega]

/-- The slot a round overwrites is the one of the oldest word, which no later round reads (R174). -/
theorem WindowHolds.step {b w : Block} {i : Nat} (h : WindowHolds b i w) (h16 : 16 ≤ i) (hi : i < 64) :
    WindowHolds b (i + 1) (windowStep i w).2 := by
  intro d hd
  rw [windowStep_slot h16]
  by_cases newest : d = 15
  · rw [if_pos (by omega), h.word h16 hi]
    congr 1; omega
  · have older := h (d + 1) (by omega)
    rw [if_neg (by omega), slot_congr w (k := i + (d + 1)) (by omega), older]
    congr 1; omega

theorem windowAt_holds (b : Block) {i : Nat} (h16 : 16 ≤ i) (hi : i ≤ 64) : WindowHolds b i (windowAt i b) := by
  induction i, h16 using Nat.le_induction with
  | base => rw [windowAt_of_le le_rfl]; exact windowHolds_start b
  | succ i h16 ih => exact (ih (by omega)).step h16 hi

/-- Settles O38: before round 16 the window is the block, from round 16 on it holds the last sixteen schedule words. -/
theorem windowGivesTheSchedule : Obligations.WindowGivesTheSchedule := by
  intro b i hi
  by_cases early : i < 16
  · rw [windowAt_of_le early.le, windowStep_of_lt early, schedule_getD_slot b early]
  · exact (windowAt_holds b (by omega) hi.le).word (by omega) hi

end Sys2Proof.Machine

/-! Compression (43_compression.md). R199, R201: choose and majority bit by bit. R190 to R196, R202: the
variables before each round. R197: the cycle-level steps of a block leave those variables, and the steps of a job its
completion. -/
namespace Sys2Proof.Machine

/-! ## Choose and majority -/

theorem ch_getLsbD (e f g : Word) {i : Nat} (hi : i < 32) :
    (ch e f g).getLsbD i = if e.getLsbD i then f.getLsbD i else g.getLsbD i := by
  rw [ch, BitVec.getLsbD_xor, BitVec.getLsbD_and, BitVec.getLsbD_and, BitVec.getLsbD_not]
  cases e.getLsbD i <;> simp [hi]

theorem maj_getLsbD (a b c : Word) (i : Nat) : (maj a b c).getLsbD i =
    ((a.getLsbD i && b.getLsbD i) ^^ (a.getLsbD i && c.getLsbD i) ^^ (b.getLsbD i && c.getLsbD i)) := by
  simp [maj]

/-- The exclusive or of the three pairwise products is the majority of three bits. -/
theorem xor_and_pairs_iff : ∀ x y z : Bool,
    ((x && y) ^^ (x && z) ^^ (y && z)) = true ↔ 2 ≤ x.toNat + y.toNat + z.toNat := by
  decide

/-- Settles O35: `ch` selects with the bit of e, `maj` is the exclusive or of the pairwise products. -/
theorem chooseAndMajorityBits : Obligations.ChooseAndMajorityBits := by
  refine ⟨fun e f g _ => ch_getLsbD e f g, fun a b c i _ => ?_⟩
  rw [maj_getLsbD]
  exact xor_and_pairs_iff _ _ _

/-! ## The variables before each round -/

/-- The working variables before round `i` of a block: loaded from H, then the rounds 0 to i - 1 (R190, R195). -/
def varsAt (H : HashState) (b : Block) (i : Nat) : Vars :=
  (Vars.load H).rounds ((kTable.zip (schedule b)).take i)

theorem varsAt_zero (H : HashState) (b : Block) : varsAt H b 0 = Vars.load H := rfl

theorem zip_kTable_schedule_getElem? (b : Block) {i : Nat} (hi : i < 64) :
    (kTable.zip (schedule b))[i]? = some (K i, (schedule b).getD i 0) := by
  have hk : i < kTable.length := hi
  have hw : i < (schedule b).length := by rwa [schedule_length]
  rw [List.getElem?_zip_eq_some]
  simp [K, hk, hw]

theorem varsAt_succ (H : HashState) (b : Block) {i : Nat} (hi : i < 64) :
    varsAt H b (i + 1) = (varsAt H b i).round (K i) ((schedule b).getD i 0) := by
  simp [varsAt, Vars.rounds, List.take_add_one, zip_kTable_schedule_getElem? b hi]

theorem compress_eq_accumulate (H : HashState) (b : Block) : compress H b = accumulate H (varsAt H b 64) := by
  have all : (kTable.zip (schedule b)).length ≤ 64 := by simp [kTable_length]
  rw [compress, varsAt, List.take_of_length_le all]

/-- Settles O39: `varsAt` starts at the load, each round is `varsAt_succ`, and the block ends with the accumulate. -/
theorem compressByRounds : Obligations.CompressByRounds := fun H b =>
  ⟨varsAt H b, varsAt_zero H b, fun _ => varsAt_succ H b, compress_eq_accumulate H b⟩

/-! ## The cycle-level steps of a block -/

theorem Pipeline.roundSteps_succ (n : Nat) (p : Pipeline) : p.roundSteps (n + 1) = (p.roundSteps n).roundStep := by
  induction n generalizing p with
  | zero => rfl
  | succ n ih => rw [roundSteps, ih, ← roundSteps]

/-- After the load and `n` rounds the variables and the window are those before round `n`, and nothing but BLK
is left of the registers before the load. -/
theorem Pipeline.load_roundSteps (H : HashState) (b : Block) (p : Pipeline) {n : Nat} (hn : n ≤ 64) :
    (p.load H b).roundSteps n = ⟨BitVec.ofNat 7 n, p.BLK, varsAt H b n, windowAt n b⟩ := by
  induction n with
  | zero => rfl
  | succ n ih =>
    have hlt : n < 64 := by omega
    have index : (BitVec.ofNat 7 n).toNat = n := Nat.mod_eq_of_lt (by omega)
    rw [roundSteps_succ, ih (by omega), varsAt_succ H b hlt, ← windowGivesTheSchedule b n hlt, BitVec.ofNat_add]
    simp only [roundStep, index, windowAt]
    rfl

/-- The hidden registers when block `b`, started from `H`, is ready to accumulate, with BLK at `blk`. -/
def Pipeline.afterRounds (blk : BitVec 1) (H : HashState) (b : Block) : Pipeline :=
  ⟨64, blk, varsAt H b 64, windowAt 64 b⟩

theorem Pipeline.runBlock_eq (i : Nat) (H : HashState) (b : Block) (p : Pipeline) :
    p.runBlock i H b = afterRounds (BitVec.ofNat 1 i) H b :=
  load_roundSteps H b _ le_rfl

theorem Pipeline.accumulate_afterRounds (blk : BitVec 1) (H : HashState) (b : Block) :
    accumulate H (afterRounds blk H b).vars = compress H b := by
  rw [compress_eq_accumulate, afterRounds]

theorem Pipeline.runBlocks_cons (i : Nat) (H : HashState) (b : Block) (bs : List Block) (p : Pipeline) :
    p.runBlocks i H (b :: bs) = (afterRounds (BitVec.ofNat 1 i) H b).runBlocks (i + 1) (compress H b) bs := by
  rw [runBlocks, runBlock_eq, accumulate_afterRounds]

theorem State.complete_pipe (s : State) (j : Job) (h : s.core.JOB = some j) :
    s.complete.pipe = s.pipe.runBlocks 0 s.core.H j.blocks := by
  simp [State.complete, h]

/-! ## The cycle-level engine -/

theorem CycleEngine.run_one (c : CycleEngine) : c.run 1 = c.next := rfl

theorem CycleEngine.run_add (m n : Nat) (c : CycleEngine) : c.run (m + n) = (c.run m).run n := by
  induction m generalizing c with
  | zero => rw [Nat.zero_add, run]
  | succ m ih => rw [Nat.succ_add, run, ih, run]

section
variable {c : CycleEngine} {j : Job} {b : Block}

theorem CycleEngine.next_of_not_loaded (hj : c.core.JOB = some j) (hl : c.loaded = false) :
    c.next = { c with
      pipe := c.pipe.load c.core.H (j.blocks.getD c.pipe.BLK.toNat (Vector.replicate 16 0)), loaded := true } := by
  simp [next, hj, hl]

theorem CycleEngine.next_of_round (hj : c.core.JOB = some j) (hl : c.loaded = true) (hr : c.pipe.ROUND.toNat < 64) :
    c.next = { c with pipe := c.pipe.roundStep } := by
  simp [next, hj, hl, hr]

theorem CycleEngine.next_of_done (hj : c.core.JOB = some j) (hl : c.loaded = true) (hr : c.pipe.ROUND = 64) :
    c.next = c.accumulateStep j := by
  simp [next, hj, hl, hr]

theorem CycleEngine.run_rounds (n : Nat) {c : CycleEngine} (hj : c.core.JOB = some j) (hl : c.loaded = true)
    (hr : c.pipe.ROUND.toNat + n ≤ 64) : c.run n = { c with pipe := c.pipe.roundSteps n } := by
  induction n generalizing c with
  | zero => rfl
  | succ n ih =>
    have counts : c.pipe.roundStep.ROUND.toNat = c.pipe.ROUND.toNat + 1 := by
      rw [Pipeline.roundStep_ROUND, BitVec.toNat_add]
      exact Nat.mod_eq_of_lt (by simp; omega)
    rw [run, next_of_round hj hl (by omega), ih (by exact hj) (by exact hl) (by rw [counts]; omega)]
    rfl

theorem CycleEngine.accumulateStep_of_more (more : c.pipe.BLK.toNat + 1 < j.blocks.length) :
    c.accumulateStep j = ⟨{ c.core with H := accumulate c.core.H c.pipe.vars },
      { c.pipe with BLK := c.pipe.BLK + 1 }, false⟩ :=
  if_pos more

/-- The last block's accumulate step makes the other assignments of the completion too (R250). -/
theorem CycleEngine.accumulateStep_of_last (last : j.blocks.length ≤ c.pipe.BLK.toNat + 1) :
    c.accumulateStep j = ⟨{ c.core.complete j with H := accumulate c.core.H c.pipe.vars }, c.pipe, false⟩ :=
  if_neg (Nat.not_lt.mpr last)

/-- The 66 steps of a block (R197): load, 64 rounds, accumulate. -/
theorem CycleEngine.run_block (hj : c.core.JOB = some j) (hl : c.loaded = false)
    (hb : j.blocks[c.pipe.BLK.toNat]? = some b) :
    c.run 66 = accumulateStep j { c with pipe := .afterRounds c.pipe.BLK c.core.H b, loaded := true } := by
  have first : c.next = { c with pipe := c.pipe.load c.core.H b, loaded := true } := by
    rw [next_of_not_loaded hj hl, List.getD_eq_getElem?_getD, hb, Option.getD_some]
  have rounds : (c.pipe.load c.core.H b).roundSteps 64 = .afterRounds c.pipe.BLK c.core.H b :=
    Pipeline.load_roundSteps _ _ _ le_rfl
  rw [show 66 = 1 + 64 + 1 from rfl, run_add, run_add, run_one, run_one, first,
    run_rounds 64 (by exact hj) rfl (by simp), rounds, next_of_done (by exact hj) rfl rfl]

theorem CycleEngine.run_block_of_more (hj : c.core.JOB = some j) (hl : c.loaded = false)
    (hb : j.blocks[c.pipe.BLK.toNat]? = some b) (more : c.pipe.BLK.toNat + 1 < j.blocks.length) :
    c.run 66 = ⟨{ c.core with H := compress c.core.H b }, .afterRounds (c.pipe.BLK + 1) c.core.H b, false⟩ := by
  rw [run_block hj hl hb, accumulateStep_of_more (by exact more), Pipeline.accumulate_afterRounds]
  simp only [Pipeline.afterRounds]

theorem CycleEngine.run_block_of_last (hj : c.core.JOB = some j) (hl : c.loaded = false)
    (hb : j.blocks[c.pipe.BLK.toNat]? = some b) (last : j.blocks.length ≤ c.pipe.BLK.toNat + 1) :
    c.run 66 = ⟨{ c.core.complete j with H := compress c.core.H b },
      .afterRounds c.pipe.BLK c.core.H b, false⟩ := by
  rw [run_block hj hl hb, accumulateStep_of_last (by exact last), Pipeline.accumulate_afterRounds]

end

/-- Settles O32: 66 steps are one block's compression (`run_block_of_more`, `run_block_of_last`). A job of one block is
its last block, and in a job of two the second starts from the H and the BLK that the first left. -/
theorem cycleEngineRefinesCompletion : Obligations.CycleEngineRefinesCompletion := by
  intro s ⟨kind, blocks, newlen⟩ hj hlen
  rw [State.complete_core s _ hj, State.complete_pipe s _ hj]
  rcases hlen with one | two
  · obtain ⟨b, rfl⟩ := List.length_eq_one_iff.mp one
    rw [Pipeline.runBlocks_cons]
    exact CycleEngine.run_block_of_last (c := .start s) hj rfl rfl le_rfl
  · obtain ⟨b, b', rfl⟩ := List.length_eq_two.mp two
    have first := CycleEngine.run_block_of_more (c := .start s) hj rfl rfl (by decide : 0 + 1 < 2)
    rw [Pipeline.runBlocks_cons, Pipeline.runBlocks_cons, show 66 * [b, b'].length = 66 + 66 from rfl,
      CycleEngine.run_add, first]
    exact CycleEngine.run_block_of_last (j := ⟨kind, [b, b'], newlen⟩) hj rfl rfl le_rfl

end Sys2Proof.Machine

/-! SUPPORT. The digest (44_digest.md). R221: the completion commutes with a transaction that presents no command. R224: what
keeps a valid digest. R225: what the command sequence of a message leaves in the record. -/
namespace Sys2Proof.Machine

/-! ## The completion beside a plain transaction -/

theorem State.raise_complete_core (e : Err) (s : State) : (s.raise e).complete.core = s.complete.core.raise e := by
  cases hj : s.core.JOB with
  | none => rw [complete_of_none s hj, complete_of_none _ (by simp [hj]), raise_core]
  | some j => rw [complete_core s j hj, complete_core _ j (by simp [hj])]; cases e <;> rfl

theorem State.setMsg_complete_core (k : Fin 16) (v : Word) (s : State) :
    (s.setMsg k v).complete.core = (s.complete.setMsg k v).core := by
  cases hj : s.core.JOB with
  | none => rw [complete_of_none s hj, complete_of_none (s.setMsg k v) hj]
  | some j => rw [setMsg_core, complete_core s j hj, complete_core (s.setMsg k v) j hj]; rfl

/-- A transaction that presents no word to CMD does the same in every state. -/
theorem access_of_plain {a : Access} (plain : ∀ v, a ≠ .write 0x00 4 v) :
    (∀ s, (access a s).2 = .next (s.raise .acc)) ∨ (∀ s, (access a s).2 = .next s) ∨
      ∃ k v, ∀ s, (access a s).2 = .next (s.setMsg k v) := by
  cases form : accessLegal a.off a.size with
  | false => exact .inl fun s => by rw [access_of_illegal form]
  | true =>
    cases a with
    | read off n =>
      obtain ⟨rfl, aligned⟩ := (accessLegal_iff off n).1 form
      rw [← Reg.off_ofOffset off aligned]
      exact .inr (.inl fun s => by rw [access_read_off])
    | write off n v =>
      have ownOffset : Access.write off n v = .write (Reg.ofOffset off).off 4 v := write_eq_of_legal form rfl v
      rw [ownOffset] at plain ⊢
      simp only [access_write_off]
      cases hreg : Reg.ofOffset off with
      | cmd => exact absurd (by rw [hreg]; rfl) (plain v)
      | msg k => exact .inr (.inr ⟨k, v, fun _ => rfl⟩)
      | _ => exact .inr (.inl fun _ => rfl)

/-- Settles O31: a plain transaction is `raise`, `setMsg` or nothing in every state (`access_of_plain`), and the completion
commutes with each of them. -/
theorem engineCommutesWithPlainTransactions : Obligations.EngineCommutesWithPlainTransactions := by
  intro a s t u plain before after
  rcases access_of_plain plain with raises | keeps | ⟨k, v, sets⟩
  · obtain rfl := Host.Outcome.next.inj ((raises s).symm.trans before)
    obtain rfl := Host.Outcome.next.inj ((raises _).symm.trans after)
    exact s.raise_complete_core .acc
  · obtain rfl := Host.Outcome.next.inj ((keeps s).symm.trans before)
    exact congrArg State.core (Host.Outcome.next.inj ((keeps _).symm.trans after))
  · obtain rfl := Host.Outcome.next.inj ((sets s).symm.trans before)
    obtain rfl := Host.Outcome.next.inj ((sets _).symm.trans after)
    exact s.setMsg_complete_core k v

/-! ## What keeps a valid digest -/

theorem CoreState.readReg_digest_congr {c c' : CoreState} (hH : c'.H = c.H) (hd : c'.DVALID = c.DVALID) (k : Fin 8) :
    c'.readReg (.digest k) = c.readReg (.digest k) := by
  simp only [readReg, hH, hd]

/-- Settles O55: a record with a digest is finalized and has no job (R49), so of the effects that write H or DVALID only INIT
and reset are left. -/
theorem digestStableUntilInitOrReset : Obligations.DigestStableUntilInitOrReset := by
  intro s t inv valid h
  have finalized := (inv.digestValid valid).1
  cases step_dataEffect h with
  | kept data => exact .inl ⟨data.DVALID.trans valid, CoreState.readReg_digest_congr data.H data.DVALID⟩
  | msgWrite _ _ _ _ _ _ _ _ _ _ _ core => rw [core]; exact .inl ⟨valid, CoreState.readReg_digest_congr rfl rfl⟩
  | completed j job => exact absurd valid (ne_true_of_eq_false (inv.dvalid_of_job job))
  | reset next => exact .inr (.inr next)
  | init next => exact .inr (.inl next)
  | update _ _ unfinalized => exact absurd finalized (ne_true_of_eq_false unfinalized)
  | final _ _ _ unfinalized => exact absurd finalized (ne_true_of_eq_false unfinalized)

/-! ## The command sequence of a message -/

theorem absorb_update {s : State} (b : Block) (idle : s.core.JOB = none) (unfinalized : s.core.FINALIZED = false) :
    ∃ t, absorb b .update s = .next t ∧
      t.core = { s.core with H := compress s.core.H b, MSG := b, LEN := s.core.LEN + 64 } := by
  refine ⟨_, by rw [absorb, exec_update_of_open (by exact idle) (by exact unfinalized), andThen_next], ?_⟩
  rw [State.complete_core _ _ rfl]
  simp [CoreState.complete, updateJob, State.loadMsg, compressAll, idle]

theorem absorb_final {s : State} (b : Block) (n : Nat) (idle : s.core.JOB = none)
    (unfinalized : s.core.FINALIZED = false) :
    ∃ t, absorb b (.final n) s = .next t ∧
      t.core = { s.core with
        H         := compressAll s.core.H (padtail b n (totalLen s.core.LEN n))
        MSG       := b
        LEN       := totalLen s.core.LEN n
        DVALID    := true
        FINALIZED := true } := by
  refine ⟨_, by rw [absorb, exec_final_of_open n (by exact idle) (by exact unfinalized), andThen_next], ?_⟩
  rw [State.complete_core _ _ rfl]
  simp [CoreState.complete, finalJob, State.loadMsg, idle]

/-- The UPDATEs compress their blocks in order and count them in LEN; MSG is left at one of the blocks. -/
theorem absorbBlocks_eq (bs : List Block) {s : State} (idle : s.core.JOB = none)
    (unfinalized : s.core.FINALIZED = false) :
    ∃ t M, absorbBlocks bs s = .next t ∧
      t.core = { s.core with
        H   := compressAll s.core.H bs
        MSG := M
        LEN := s.core.LEN + BitVec.ofNat 64 (64 * bs.length) } := by
  induction bs generalizing s with
  | nil => exact ⟨s, s.core.MSG, rfl, by simp [compressAll]⟩
  | cons b bs ih =>
    obtain ⟨u, first, core⟩ := absorb_update b idle unfinalized
    obtain ⟨t, M, rest, core'⟩ := ih (s := u) (by rw [core]; exact idle) (by rw [core]; exact unfinalized)
    have count : 64 * (b :: bs).length = 64 + 64 * bs.length := by rw [List.length_cons]; omega
    refine ⟨t, M, by rw [absorbBlocks, first]; exact rest, ?_⟩
    rw [core', core, count, BitVec.ofNat_add, ← BitVec.add_assoc]
    rfl

/-- The record after the command sequence of a message, from any record that takes UPDATE and FINAL. -/
theorem hashMessage_eq (m : List Byte) {s : State} (idle : s.core.JOB = none) (unfinalized : s.core.FINALIZED = false) :
    ∃ t, hashMessage m s = .next t ∧
      t.core = { s.core with
        H := compressAll s.core.H (blocksOf m ++
          padtail (packBlock (lastBytes m)) (m.length % 64) (s.core.LEN + BitVec.ofNat 64 m.length))
        MSG       := packBlock (lastBytes m)
        LEN       := s.core.LEN + BitVec.ofNat 64 m.length
        DVALID    := true
        FINALIZED := true } := by
  obtain ⟨u, M, full, core⟩ := absorbBlocks_eq (blocksOf m) idle unfinalized
  obtain ⟨t, last, core'⟩ := absorb_final (s := u) (packBlock (lastBytes m)) (m.length % 64)
    (by rw [core]; exact idle) (by rw [core]; exact unfinalized)
  have total : totalLen u.core.LEN (m.length % 64) = s.core.LEN + BitVec.ofNat 64 m.length := by
    rw [core, totalLen, BitVec.add_assoc, ← BitVec.ofNat_add, blocksOf_length, Nat.div_add_mod]
  refine ⟨t, by rw [hashMessage, full]; exact last, ?_⟩
  rw [core', total, core]
  simp [compressAll]

/-- Settles O46: from IV and LEN = 0 the sequence compresses the blocks of `pad(m)` (`paddingUnitAgreesWithPad`), as `sha256`
does. -/
theorem commandSequenceComputesSha256 : Obligations.CommandSequenceComputesSha256 := by
  refine ⟨fun m s ⟨idle, unfinalized, hash, len⟩ clean => ?_, ⟨rfl, rfl, rfl, rfl⟩, fun s idle => ?_⟩
  · obtain ⟨t, run, core⟩ := hashMessage_eq m idle unfinalized
    rw [len, zero_add, hash, ← paddingUnitAgreesWithPad] at core
    have valid : t.core.DVALID = true := by rw [core]
    refine ⟨t, run, valid, by rw [core, busy_false_iff]; exact idle, by rw [core]; exact clean, by rw [core], ?_⟩
    rw [(serializeLayout.2 t.core valid).2, core, sha256]
  · exact ⟨_, exec_init_of_idle idle, ⟨idle, rfl, rfl, rfl⟩, rfl⟩

end Sys2Proof.Machine

/-! SUPPORT. The commands, the register transactions and the engine's turn (45_commands.md): when a command is refused, all that
a command and a transaction can do to the state, and the step that performs a line. -/
namespace Sys2Proof.Machine

/-! ## The state after any command -/

/-- Everything a command can do to the state: it is refused, by the busy check or the finalize check, or it has the effect of
its rule (R240 to R243). -/
theorem exec_cases {i : Instr} {s t : State} (h : exec i s = .next t) :
    (i ≠ .clrerr ∧ (t = s.raise .busy ∨ t = s.raise .waf)) ∨
    (i = .init ∧ t = { s with core := s.core.newMessage }) ∨
    (i = .update ∧ t = s.startJob (updateJob s.core)) ∨
    (∃ n, i = .final n ∧ t = (s.startJob (finalJob n s.core)).setFinalized) ∨
    (i = .clrerr ∧ t = s.clearErrors) := by
  cases i with
  | init =>
    rcases execInit_cases h with ⟨-, refused⟩ | ⟨-, accepted⟩
    · exact .inl ⟨nofun, .inl refused⟩
    · exact .inr (.inl ⟨rfl, accepted⟩)
  | update =>
    rcases execUpdate_cases h with ⟨-, refused⟩ | ⟨-, -, refused⟩ | ⟨-, -, accepted⟩
    · exact .inl ⟨nofun, .inl refused⟩
    · exact .inl ⟨nofun, .inr refused⟩
    · exact .inr (.inr (.inl ⟨rfl, accepted⟩))
  | final n =>
    rcases execFinal_cases h with ⟨-, refused⟩ | ⟨-, -, refused⟩ | ⟨-, -, accepted⟩
    · exact .inl ⟨nofun, .inl refused⟩
    · exact .inl ⟨nofun, .inr refused⟩
    · exact .inr (.inr (.inr (.inl ⟨n, rfl, accepted⟩)))
  | clrerr => exact .inr (.inr (.inr (.inr ⟨rfl, execClrerr_cases h⟩)))

theorem CoreState.readOff_msg (c : CoreState) (j : Fin 16) : c.readOff (Reg.msg j).off = c.MSG[j] := by
  rw [readOff, Reg.ofOffset_off, readReg]

/-- Settles O13: each outcome of `exec_cases` writes only the fields its command may change. -/
theorem commandFrame : Obligations.CommandFrame := by
  intro i s t h
  simp only [CoreState.readOff_msg]
  rcases exec_cases h with ⟨hi, rfl | rfl⟩ | ⟨rfl, rfl⟩ | ⟨rfl, rfl⟩ | ⟨n, rfl, rfl⟩ | ⟨rfl, rfl⟩
  · simp [CoreState.raise]
  · simp [CoreState.raise]
  · simp [CoreState.newMessage]
  · simp
  · simp
  · simp

/-! ## Commands refused and accepted -/

theorem exec_update_of_finalized {s : State} (idle : s.core.JOB = none) (finalized : s.core.FINALIZED = true) :
    exec .update s = .next (s.raise .waf) := by
  rw [exec, execUpdate, whenIdle_of_idle _ _ ((busy_false_iff _).2 idle), whenOpen_of_finalized _ _ finalized]

theorem exec_final_of_finalized {s : State} (n : Nat) (idle : s.core.JOB = none) (finalized : s.core.FINALIZED = true) :
    exec (.final n) s = .next (s.raise .waf) := by
  rw [exec, execFinal, whenIdle_of_idle _ _ ((busy_false_iff _).2 idle), whenOpen_of_finalized _ _ finalized]

theorem exec_of_job {i : Instr} {s : State} {j : Job} (hi : i ≠ .clrerr) (hj : s.core.JOB = some j) :
    exec i s = .next (s.raise .busy) :=
  exec_of_busy hi ((busy_iff s.core).2 ⟨j, hj⟩)

/-- The word of FINAL n as a number (30_encoding.md R101, R102). -/
theorem decode_final {n : Nat} (hn : n ≤ 63) : decode (BitVec.ofNat 32 (3 + 16 * n)) = .ok (.final n) := by
  have word : (BitVec.ofNat 32 (3 + 16 * n)).toNat = 3 + 16 * n := by rw [BitVec.toNat_ofNat]; omega
  obtain ⟨hop, hnbytes, hrsv⟩ := fields_toNat (BitVec.ofNat 32 (3 + 16 * n))
  rw [word] at hop hnbytes hrsv
  refine decode_eq_ok_iff.2 ⟨BitVec.eq_of_toNat_eq (hrsv.trans ?_),
    .inr (.inr (.inl ⟨BitVec.eq_of_toNat_eq (hop.trans ?_), congrArg Instr.final ?_⟩))⟩
  · exact Nat.div_eq_of_lt (by omega)
  · exact Nat.add_mul_mod_self_left 3 16 n
  · omega

/-- Settles O9. -/
theorem initStartsNewMessage : Obligations.InitStartsNewMessage :=
  ⟨by decide, fun _ => ⟨exec_init_of_idle, fun _ => exec_of_job nofun⟩⟩

/-- Settles O10. -/
theorem updateTakesTheBlock : Obligations.UpdateTakesTheBlock :=
  ⟨by decide, fun _ => ⟨exec_update_of_open, exec_update_of_finalized, fun _ => exec_of_job nofun⟩⟩

/-- Settles O11. -/
theorem finalPadsTheLastBytes : Obligations.FinalPadsTheLastBytes := fun n hn =>
  ⟨decode_final hn, fun _ => ⟨exec_final_of_open n, exec_final_of_finalized n, fun _ => exec_of_job nofun⟩⟩

/-- Settles O12. -/
theorem clrerrClearsTheErrorBits : Obligations.ClrerrClearsTheErrorBits :=
  ⟨by decide, fun _ => rfl⟩

/-! ## Reads and writes by offset -/

/-- Settles O20: each offset is its register's, and a legal read answers the register's value. -/
theorem readStepByOffset : Obligations.ReadStepByOffset := fun s =>
  ⟨fun off n form => illegalAccessOnlySetsErrAcc (.read off n) s form, access_read_off .cmd s, access_read_off .status s,
    access_read_off .lenLo s, access_read_off .lenHi s, fun i => access_read_off (.reserved i) s,
    fun k => access_read_off (.digest k) s, fun j => access_read_off (.msg j) s⟩

/-- The registers between CMD and MSG0 ignore a write. -/
theorem writeReg_of_between {r : Reg} (pos : 0 < r.off.toNat) (below : r.off.toNat < 0x40) (v : Word) (s : State) :
    writeReg r v s = .next s := by
  cases r with
  | cmd => exact absurd pos (by decide)
  | msg j =>
    have msg_off : (Reg.msg j).off.toNat = 0x40 + 4 * j.val := by
      rw [Reg.off, BitVec.toNat_ofNat]; omega
    omega
  | _ => rfl

/-- Settles O21: each offset is its register's, and of the registers only CMD and MSG take a write. -/
theorem writeStepByOffset : Obligations.WriteStepByOffset := by
  refine fun s v => ⟨fun off n form => illegalAccessOnlySetsErrAcc (.write off n v) s form, access_write_off .cmd v s,
    fun j => access_write_off (.msg j) v s, fun off aligned pos below => ?_⟩
  have ownOffset : (Reg.ofOffset off).off = off := Reg.off_ofOffset off aligned
  rw [← ownOffset] at pos below ⊢
  rw [access_write_off, writeReg_of_between pos below]

/-! ## The engine's turn -/

/-- Settles O28. -/
theorem completionStep : Obligations.CompletionStep := by
  refine ⟨fun s j hj => ⟨?_, s.complete_host, s.complete_resetHold⟩,
    fun s idle => ⟨s.complete_of_none idle, by simp [State.engineDue, (busy_false_iff _).2 idle]⟩,
    fun s hold due => step_of_due hold due, fun a s t j hj h => ?_⟩
  · rw [State.complete_core s j hj, CoreState.complete, compressAll]
    cases s.core.DVALID <;> simp
  · have same : s.SameJob t := access_sameJob ((busy_iff s.core).2 ⟨j, hj⟩) h
    exact ⟨same.JOB.trans hj, same.H, same.LEN⟩

theorem exec_resetHold {i : Instr} {s t : State} (h : exec i s = .next t) : t.resetHold = s.resetHold := by
  obtain ⟨-, -, -, hold, -⟩ := commandFrame i s t h
  exact hold

theorem access_resetHold {a : Access} {s t : State} (h : (access a s).2 = .next t) : t.resetHold = s.resetHold := by
  rcases access_cases h with ⟨-, -, rfl⟩ | ⟨-, rfl | ⟨off, n, w, -, -, hcommand⟩ | ⟨off, n, v, j, -, -, rfl⟩⟩
  · rfl
  · rfl
  · unfold command at hcommand
    split at hcommand
    next =>
      obtain rfl := Host.Outcome.next.inj hcommand
      rfl
    next => exact exec_resetHold hcommand
  · rfl

/-- A line is its transaction, noted, and then the host's reaction. -/
theorem performLine_eq {l : Line} {s u : State} (h : (access l.access s).2 = .next u) :
    performLine l s = .next (afterLine l s (noted l.access (access l.access s).1 s u)) := by
  rw [performLine, transact, h, andThen_next, andThen_next]

theorem hostMoves_iff (s : State) : s.hostMoves = true ↔ s.resetHold = 0 ∧ s.engineDue = false := by
  simp [State.hostMoves]

/-- With a job in flight a step of the host's either is the reset event or performs a line, which leaves the job and
shortens its wait. -/
theorem step_of_job_hostMoves {s : State} {j : Job} (hj : s.core.JOB = some j) (moves : s.hostMoves = true) :
    ∃ t, step s = .next t ∧
      (t.core.JOB = none ∨ (t.core.JOB = some j ∧ t.resetHold = s.resetHold ∧ t.turns.wait < s.turns.wait)) := by
  have busy : s.core.busy = true := (busy_iff s.core).2 ⟨j, hj⟩
  have notDue := ((hostMoves_iff s).1 moves).2
  obtain ⟨waits, queued⟩ : s.turns.wait ≠ 0 ∧ s.host.inputs ≠ [] := by
    simpa [State.engineDue, busy] using notDue
  obtain ⟨i, rest, next⟩ := List.exists_cons_of_ne_nil queued
  rw [step_of_hostMoves moves, hostTurn, next]
  cases i with
  | reset hold => exact ⟨_, rfl, .inl rfl⟩
  | line l =>
    obtain ⟨u, hu⟩ := access_runs l.access (s.takeInput rest)
    have same : (s.takeInput rest).SameJob u := access_sameJob busy hu
    refine ⟨_, performLine_eq hu, .inr ⟨?_, ?_, ?_⟩⟩
    · rw [afterLine_core, noted_core, same.JOB]; exact hj
    · rw [afterLine_resetHold, noted_resetHold, access_resetHold hu]; rfl
    · rw [afterLine_turns, noted_turns, same.turns]; exact Nat.sub_one_lt waits

/-- A step with a job in flight ends the job or comes closer to its end: the hold and the wait together fall. -/
theorem step_of_job {s : State} {j : Job} (hj : s.core.JOB = some j) :
    ∃ t, step s = .next t ∧ (t.core.JOB = none ∨
      (t.core.JOB = some j ∧ t.resetHold + t.turns.wait < s.resetHold + s.turns.wait)) := by
  by_cases hold : s.resetHold = 0
  · cases due : s.engineDue with
    | true =>
      refine ⟨s.complete, step_of_due hold due, .inl ?_⟩
      rw [State.complete_core s j hj, CoreState.complete_JOB]
    | false =>
      obtain ⟨t, ht, ended | ⟨kept, hold', shorter⟩⟩ := step_of_job_hostMoves hj ((hostMoves_iff s).2 ⟨hold, due⟩)
      · exact ⟨t, ht, .inl ended⟩
      · exact ⟨t, ht, .inr ⟨kept, by omega⟩⟩
  · refine ⟨s.holdReset, if_pos hold, .inr ⟨hj, ?_⟩⟩
    rw [State.holdReset_resetHold, State.holdReset_turns]
    omega

theorem run_succ_of_step {M : Host.Core} {s t : M.State} (h : M.step s = .next t) (k : Nat) :
    M.run (k + 1) s = M.run k t := by
  rw [Host.Core.run, h]

/-- Settles O29, by induction on a bound of the hold and the wait together, which every step lowers until the job ends. -/
theorem jobEndsInBoundedSteps : Obligations.JobEndsInBoundedSteps := by
  intro s j hj
  generalize bound : s.resetHold + s.turns.wait = n
  induction n using Nat.strong_induction_on generalizing s with
  | _ n ih =>
    obtain ⟨t, ht, ended | ⟨kept, closer⟩⟩ := step_of_job hj
    · exact ⟨1, t, by omega, run_succ_of_step (M := core) ht 0, ended⟩
    · obtain ⟨k, u, hk, hu, ended⟩ := ih _ (bound ▸ closer) t kept rfl
      exact ⟨k + 1, u, by omega, (run_succ_of_step (M := core) ht k).trans hu, ended⟩

/-! ## The step that performs a line -/

/-- Only POLL and EXPECT have the host react (30_encoding.md R110). -/
theorem afterLine_of_plain {l : Line} (noPoll : ∀ r mask value, l ≠ .poll r mask value)
    (noExpect : ∀ r imm, l ≠ .expect r imm) (before s : State) : afterLine l before s = s := by
  cases l with
  | poll r mask value => exact absurd rfl (noPoll r mask value)
  | expect r imm => exact absurd rfl (noExpect r imm)
  | _ => rfl

theorem afterLine_of_write {l : Line} {off : Offset} {n : Nat} {v : Word} (h : l.access = .write off n v)
    (before s : State) : afterLine l before s = s :=
  afterLine_of_plain (by rintro r mask value rfl; cases h) (by rintro r imm rfl; cases h) before s

/-- A line that writes CMD presents its word as a command, and is noted. -/
theorem step_of_cmdWrite {s : State} {l : Line} {w : Word} {rest : List Input} (moves : s.hostMoves = true)
    (next : s.host.inputs = .line l :: rest) (write : l.access = .write 0x00 4 w) :
    step s = andThen (command w (s.takeInput rest)) (noted (.write 0x00 4 w) .okay (s.takeInput rest)) := by
  have answer : access l.access (s.takeInput rest) = (.okay, command w (s.takeInput rest)) :=
    write ▸ access_write_off .cmd w (s.takeInput rest)
  obtain ⟨u, hu⟩ := access_runs l.access (s.takeInput rest)
  rw [step_of_line moves next, performLine_eq hu, afterLine_of_write write, answer, write]
  rw [answer] at hu
  rw [show command w (s.takeInput rest) = .next u from hu, andThen_next]

theorem command_of_decode {w : Word} {i : Instr} (h : decode w = .ok i) (s : State) : command w s = exec i s := by
  rw [command, h]

theorem decode_of_decodeTableWord {w : Nat} {i : Instr} (hw : w < 2 ^ 32) (h : decodeTableWord 32 w = some i) :
    decode (BitVec.ofNat 32 w) = .ok i := by
  rw [decodeTableWord, Nat.mod_eq_of_lt hw, if_pos hw] at h
  split at h
  next hd => rw [hd, Option.some.inj h]
  next => cases h

theorem State.putFirst_hostMoves (i : Input) (s : State) : (s.putFirst i).hostMoves = true := by
  simp [State.hostMoves, State.engineDue]

theorem State.putFirst_takeInput (i : Input) (s : State) :
    (s.putFirst i).takeInput s.host.inputs = { s with resetHold := 0 } := rfl

/-- Settles O47. -/
theorem stepRunsTheDecodedCommand : Obligations.StepRunsTheDecodedCommand := by
  refine ⟨fun s l w rest i moves next write legal => ?_, fun s l w rest moves next write illegal => ?_,
    fun s l rest moves next => ⟨rfl, rfl, ?_⟩, fun l before s noPoll noExpect => afterLine_of_plain noPoll noExpect before s,
    fun s w i hw table => ?_⟩
  · rw [step_of_cmdWrite moves next write, command_of_decode legal]
  · rw [step_of_cmdWrite moves next write, command_of_illegal illegal, andThen_next]
  · obtain ⟨u, hu⟩ := access_runs l.access (s.takeInput rest)
    exact ⟨u, hu, (step_of_line moves next).trans (performLine_eq hu)⟩
  · rw [State.withFetchWord, Nat.mod_eq_of_lt hw, step_of_cmdWrite (s.putFirst_hostMoves _) rfl rfl,
      command_of_decode (decode_of_decodeTableWord hw table), State.putFirst_takeInput]

end Sys2Proof.Machine

/-! SUPPORT. The errors (60_exceptions.md): the answer to each command word, what a command and a transaction can do to the
error bits, and that no step stops. -/
namespace Sys2Proof.Machine

/-! ## The word of a command written to CMD -/

theorem access_cmdWrite (w : Word) (s : State) : access (.write 0x00 4 w) s = (.okay, command w s) :=
  access_write_off .cmd w s

theorem access_encode {i : Instr} (hwf : i.WellFormed) (s : State) :
    access (.write 0x00 4 (encode i)) s = (.okay, exec i s) := by
  rw [access_cmdWrite, command_of_decode (decodeEncodeRoundTrip i hwf)]

theorem exists_encode_of_legal {w : Word} (h : legal w = true) : ∃ i : Instr, i.WellFormed ∧ encode i = w := by
  obtain ⟨i, hi⟩ := (legal_iff_decodes w).1 h
  exact ⟨i, encodeDecodeRoundTrip w i hi⟩

theorem access_encode_of_job {i : Instr} {s : State} {j : Job} (hwf : i.WellFormed) (hi : i ≠ .clrerr)
    (hj : s.core.JOB = some j) : access (.write 0x00 4 (encode i)) s = (.okay, .next (s.raise .busy)) := by
  rw [access_encode hwf, exec_of_job hi hj]

/-- The finalize check stands before UPDATE and FINAL (45_commands.md R241, R242). -/
theorem exec_of_finalized {i : Instr} {s : State} (hclrerr : i ≠ .clrerr) (hinit : i ≠ .init)
    (idle : s.core.JOB = none) (finalized : s.core.FINALIZED = true) : exec i s = .next (s.raise .waf) := by
  cases i with
  | init => exact absurd rfl hinit
  | update => exact exec_update_of_finalized idle finalized
  | final n => exact exec_final_of_finalized n idle finalized
  | clrerr => exact absurd rfl hclrerr

theorem access_encode_of_finalized {i : Instr} {s : State} (hwf : i.WellFormed) (hclrerr : i ≠ .clrerr)
    (hinit : i ≠ .init) (idle : s.core.JOB = none) (finalized : s.core.FINALIZED = true) :
    access (.write 0x00 4 (encode i)) s = (.okay, .next (s.raise .waf)) := by
  rw [access_encode hwf, exec_of_finalized hclrerr hinit idle finalized]

/-- Settles O14. -/
theorem busyDropsTheCommand : Obligations.BusyDropsTheCommand := by
  intro s j n hj hn
  have hfinal : (Instr.final n).WellFormed := (Instr.wellFormed_final_iff n).2 hn
  refine ⟨?_, s.clearErrors, access_encode rfl s, rfl, hj⟩
  simp only [List.forall_mem_cons]
  exact ⟨access_encode_of_job rfl nofun hj, access_encode_of_job rfl nofun hj,
    access_encode_of_job hfinal nofun hj, nofun⟩

/-- Settles O15. -/
theorem writeAfterFinalizeIsDropped : Obligations.WriteAfterFinalizeIsDropped := by
  intro s n idle finalized hn
  have hfinal : (Instr.final n).WellFormed := (Instr.wellFormed_final_iff n).2 hn
  simp only [List.forall_mem_cons]
  exact ⟨access_encode_of_finalized rfl nofun nofun idle finalized,
    access_encode_of_finalized hfinal nofun nofun idle finalized, nofun⟩

/-! ## What a command and a transaction do to the error bits -/

/-- The only bit that `raise` sets is its own. -/
theorem CoreState.eq_of_raise_errBit {c : CoreState} {raised e : Err} (before : c.errBit e = false)
    (after : (c.raise raised).errBit e = true) : raised = e := by
  simpa [before] using after

theorem CoreState.raise_errBit_of_set {c : CoreState} {e : Err} (raised : Err) (h : c.errBit e = true) :
    (c.raise raised).errBit e = true := by
  rw [raise_errBit, h, Bool.or_true]

@[simp] theorem CoreState.reset_errBit (e : Err) : CoreState.reset.errBit e = false := by cases e <;> rfl

@[simp] theorem State.setMsg_errBit (j : Fin 16) (v : Word) (s : State) (e : Err) :
    (s.setMsg j v).core.errBit e = s.core.errBit e := by
  cases e <;> rfl

@[simp] theorem State.startJob_errBit (j : Job) (s : State) (e : Err) :
    (s.startJob j).core.errBit e = s.core.errBit e := by
  cases e <;> rfl

@[simp] theorem State.setFinalized_errBit (s : State) (e : Err) :
    s.setFinalized.core.errBit e = s.core.errBit e := by
  cases e <;> rfl

@[simp] theorem State.complete_errBit (s : State) (e : Err) : s.complete.core.errBit e = s.core.errBit e := by
  cases hj : s.core.JOB with
  | none => rw [complete_of_none s hj]
  | some j => rw [complete_core s j hj, CoreState.complete_errBit]

/-- Everything a command can do to the error bits (60_exceptions.md R281, R282, R286). -/
inductive ErrorEffect (i : Instr) (c c' : CoreState) : Prop where
  | busy (checked : i ≠ .clrerr) (busy : c.busy = true) (core : c' = c.raise .busy)
  | waf (checked : i = .update ∨ ∃ n, i = .final n) (idle : c.busy = false) (finalized : c.FINALIZED = true)
      (core : c' = c.raise .waf)
  | kept (bits : ∀ e, c'.errBit e = c.errBit e)
  | cleared (command : i = .clrerr ∨ i = .init) (bits : ∀ e, c'.errBit e = false)

theorem exec_errorEffect {i : Instr} {s t : State} (h : exec i s = .next t) : ErrorEffect i s.core t.core := by
  cases i with
  | init =>
    rcases execInit_cases h with ⟨busy, rfl⟩ | ⟨-, rfl⟩
    · exact .busy nofun busy rfl
    · exact .cleared (.inr rfl) (CoreState.newMessage_errBit s.core)
  | update =>
    rcases execUpdate_cases h with ⟨busy, rfl⟩ | ⟨idle, finalized, rfl⟩ | ⟨-, -, rfl⟩
    · exact .busy nofun busy rfl
    · exact .waf (.inl rfl) idle finalized rfl
    · exact .kept (State.startJob_errBit _ s)
  | final n =>
    rcases execFinal_cases h with ⟨busy, rfl⟩ | ⟨idle, finalized, rfl⟩ | ⟨-, -, rfl⟩
    · exact .busy nofun busy rfl
    · exact .waf (.inr ⟨n, rfl⟩) idle finalized rfl
    · exact .kept fun e => by rw [State.setFinalized_errBit, State.startJob_errBit]
  | clrerr =>
    obtain rfl := execClrerr_cases h
    exact .cleared (.inl rfl) (CoreState.clearErrors_errBit s.core)

/-- A command word raises one error or none. -/
theorem command_raises_one_or_none {w : Word} {s t : State} (h : command w s = .next t) :
    (∃ raised, t.core = s.core.raise raised) ∨ ∀ e, t.core.errBit e = true → s.core.errBit e = true := by
  unfold command at h
  split at h
  next =>
    obtain rfl := Host.Outcome.next.inj h
    exact .inl ⟨.cmd, rfl⟩
  next =>
    cases exec_errorEffect h with
    | busy _ _ core => exact .inl ⟨.busy, core⟩
    | waf _ _ _ core => exact .inl ⟨.waf, core⟩
    | kept bits => exact .inr fun e he => bits e ▸ he
    | cleared _ bits => exact .inr fun e he => absurd he (ne_true_of_eq_false (bits e))

/-- A transaction raises one error or none. -/
theorem access_raises_one_or_none {a : Access} {s t : State} (h : (access a s).2 = .next t) :
    (∃ raised, t.core = s.core.raise raised) ∨ ∀ e, t.core.errBit e = true → s.core.errBit e = true := by
  rcases access_cases h with ⟨-, -, rfl⟩ | ⟨-, rfl | ⟨off, n, w, -, -, hcommand⟩ | ⟨off, n, v, j, -, -, rfl⟩⟩
  · exact .inl ⟨.acc, rfl⟩
  · exact .inr fun _ => id
  · exact command_raises_one_or_none hcommand
  · exact .inr fun e he => State.setMsg_errBit j v s e ▸ he

/-- Settles O16: a transaction raises one error or none, and each check has its place before the next. -/
theorem oneErrorByPriority : Obligations.OneErrorByPriority := by
  refine ⟨fun a s t e e' h clear set clear' set' => ?_,
    fun off n w s form => congrArg Prod.snd (illegalAccessOnlySetsErrAcc (.write off n w) s form),
    fun w s illegal => (congrArg Prod.snd (access_cmdWrite w s)).trans (command_of_illegal illegal s),
    fun w s j hlegal hclrerr hj => ?_, fun w s hlegal hclrerr hinit idle finalized => ?_,
    fun s => ⟨s.clearErrors, congrArg Prod.snd (access_encode rfl s), CoreState.clearErrors_errBit s.core⟩,
    State.complete_errBit⟩
  · rcases access_raises_one_or_none h with ⟨raised, core⟩ | none
    · rw [core] at set set'
      exact (CoreState.eq_of_raise_errBit clear set).symm.trans (CoreState.eq_of_raise_errBit clear' set')
    · exact absurd (none e set) (ne_true_of_eq_false clear)
  · obtain ⟨i, hwf, rfl⟩ := exists_encode_of_legal hlegal
    have hi : i ≠ .clrerr := fun h => hclrerr (congrArg encode h)
    exact congrArg Prod.snd (access_encode_of_job hwf hi hj)
  · obtain ⟨i, hwf, rfl⟩ := exists_encode_of_legal hlegal
    have hi : i ≠ .clrerr := fun h => hclrerr (congrArg encode h)
    have hi' : i ≠ .init := fun h => hinit (congrArg encode h)
    exact congrArg Prod.snd (access_encode_of_finalized hwf hi hi' idle finalized)

/-! ## What a step does to the error bits -/

theorem legal_of_decode_error {w : Word} {r : IllegalWord} (h : decode w = .error r) : legal w = false := by
  rw [← Bool.not_eq_true, legal_iff_decodes]
  rintro ⟨i, hi⟩
  cases h.symm.trans hi

/-- Settles O17: an effect that raises an error raises its own, and every other effect keeps or clears the bits. -/
theorem errorsRaisedOnlyByTheirCause : Obligations.ErrorsRaisedOnlyByTheirCause := by
  intro s t e h clear set
  have notKept : t.core.errBit e ≠ s.core.errBit e := by rw [clear, set]; decide
  cases step_effect h with
  | unchanged core => exact absurd (by rw [core]) notKept
  | completed j _ _ eq _ => exact absurd (by rw [eq, State.complete_errBit]) notKept
  | reset _ core => rw [core, CoreState.reset_errBit] at set; cases set
  | illegalAccess l rest moves next form core =>
    obtain rfl := CoreState.eq_of_raise_errBit clear (core ▸ set)
    exact ⟨moves, l, rest, next, (accessLegal_false_iff _ _).1 form⟩
  | msgWrite _ _ _ _ _ _ v j _ _ _ core => exact absurd (by rw [core]; exact s.setMsg_errBit j v e) notKept
  | illegalWord l rest moves next w write r word core =>
    obtain rfl := CoreState.eq_of_raise_errBit clear (core ▸ set)
    exact ⟨moves, l, rest, next, w, write, legal_of_decode_error word⟩
  | command i l rest moves next present effect =>
    obtain ⟨u, hu, core⟩ := effect
    rw [core] at set notKept
    cases exec_errorEffect hu with
    | busy checked busy core =>
      obtain rfl := CoreState.eq_of_raise_errBit clear (core ▸ set)
      exact ⟨moves, l, rest, next, busy, i, present, checked⟩
    | waf checked idle finalized core =>
      obtain rfl := CoreState.eq_of_raise_errBit clear (core ▸ set)
      refine ⟨moves, l, rest, next, idle, finalized, ?_⟩
      rcases checked with rfl | ⟨n, rfl⟩
      · exact .inl present
      · exact .inr ⟨n, present⟩
    | kept bits => exact absurd (bits e) notKept
    | cleared _ bits => exact absurd set (ne_true_of_eq_false (bits e))

/-- Settles O18: `raise` sets a bit and clears none, so of the effects only reset and the commands that clear are left. -/
theorem errorBitsFallOnlyByClrerrInitReset : Obligations.ErrorBitsFallOnlyByClrerrInitReset := by
  intro s t e h set clear
  have notKept : t.core.errBit e ≠ s.core.errBit e := by rw [clear, set]; decide
  have notRaised (raised : Err) : t.core ≠ s.core.raise raised := fun core =>
    ne_true_of_eq_false clear (core ▸ CoreState.raise_errBit_of_set raised set)
  cases step_effect h with
  | unchanged core => exact absurd (by rw [core]) notKept
  | completed j _ _ eq _ => exact absurd (by rw [eq, State.complete_errBit]) notKept
  | reset next _ => exact .inr (.inr next)
  | illegalAccess _ _ _ _ _ core => exact absurd core (notRaised .acc)
  | msgWrite _ _ _ _ _ _ v j _ _ _ core => exact absurd (by rw [core]; exact s.setMsg_errBit j v e) notKept
  | illegalWord _ _ _ _ _ _ _ _ core => exact absurd core (notRaised .cmd)
  | command i l rest moves next present effect =>
    obtain ⟨u, hu, core⟩ := effect
    rw [core] at notKept notRaised
    cases exec_errorEffect hu with
    | busy _ _ core => exact absurd core (notRaised .busy)
    | waf _ _ _ core => exact absurd core (notRaised .waf)
    | kept bits => exact absurd (bits e) notKept
    | cleared command _ =>
      rcases command with rfl | rfl
      · exact .inl ⟨moves, l, rest, next, present⟩
      · exact .inr (.inl ⟨moves, l, rest, next, present⟩)

/-! ## A command under a standing error bit -/

theorem State.raise_comm (e e' : Err) (s : State) : (s.raise e).raise e' = (s.raise e').raise e := by
  cases e <;> cases e' <;> rfl

theorem CoreState.newMessage_raise (e : Err) (c : CoreState) : (c.raise e).newMessage = c.newMessage := by
  cases e <;> rfl

theorem State.clearErrors_raise (e : Err) (s : State) : (s.raise e).clearErrors = s.clearErrors := by
  cases e <;> rfl

theorem State.startJob_raise (j : Job) (e : Err) (s : State) : (s.raise e).startJob j = (s.startJob j).raise e := by
  cases e <;> rfl

theorem State.setFinalized_raise (e : Err) (s : State) : (s.raise e).setFinalized = s.setFinalized.raise e := by
  cases e <;> rfl

theorem updateJob_raise (e : Err) (c : CoreState) : updateJob (c.raise e) = updateJob c := by
  simp [updateJob]

theorem finalJob_raise (n : Nat) (e : Err) (c : CoreState) : finalJob n (c.raise e) = finalJob n c := by
  simp [finalJob]

theorem whenIdle_raise (e : Err) (s : State) (o : Host.Outcome State Fault Refusal) :
    whenIdle (s.raise e) (andThen o (State.raise e)) = andThen (whenIdle s o) (State.raise e) := by
  have same : (s.raise e).core.busy = s.core.busy := s.core.raise_busy e
  cases hb : s.core.busy with
  | true => rw [whenIdle_of_busy s _ hb, whenIdle_of_busy _ _ (same.trans hb), andThen_next, State.raise_comm]
  | false => rw [whenIdle_of_idle s _ hb, whenIdle_of_idle _ _ (same.trans hb)]

theorem whenOpen_raise (e : Err) (s : State) (o : Host.Outcome State Fault Refusal) :
    whenOpen (s.raise e) (andThen o (State.raise e)) = andThen (whenOpen s o) (State.raise e) := by
  have same : (s.raise e).core.FINALIZED = s.core.FINALIZED := s.core.raise_FINALIZED e
  cases hf : s.core.FINALIZED with
  | true => rw [whenOpen_of_finalized s _ hf, whenOpen_of_finalized _ _ (same.trans hf), andThen_next, State.raise_comm]
  | false => rw [whenOpen_of_open s _ hf, whenOpen_of_open _ _ (same.trans hf)]

theorem exec_update_raise (e : Err) (s : State) :
    exec .update (s.raise e) = andThen (exec .update s) (State.raise e) := by
  rw [exec, exec, execUpdate, execUpdate, ← whenIdle_raise, ← whenOpen_raise, andThen_next, State.raise_core,
    updateJob_raise, State.startJob_raise]

theorem exec_final_raise (n : Nat) (e : Err) (s : State) :
    exec (.final n) (s.raise e) = andThen (exec (.final n) s) (State.raise e) := by
  rw [exec, exec, execFinal, execFinal, ← whenIdle_raise, ← whenOpen_raise, andThen_next, State.raise_core,
    finalJob_raise, State.startJob_raise, State.setFinalized_raise]

/-- An idle INIT clears the bit. -/
theorem exec_init_raise_of_idle {s : State} (e : Err) (idle : s.core.JOB = none) :
    exec .init (s.raise e) = exec .init s := by
  have idle' : (s.raise e).core.JOB = none := (s.core.raise_JOB e).trans idle
  rw [exec_init_of_idle idle, exec_init_of_idle idle', State.raise_core, CoreState.newMessage_raise]
  rfl

theorem exec_init_raise_of_job {s : State} {j : Job} (e : Err) (hj : s.core.JOB = some j) :
    exec .init (s.raise e) = andThen (exec .init s) (State.raise e) := by
  have hj' : (s.raise e).core.JOB = some j := (s.core.raise_JOB e).trans hj
  rw [exec_of_job (i := .init) nofun hj, exec_of_job (i := .init) nofun hj', andThen_next, State.raise_comm]

/-- Settles O19: CLRERR and an idle INIT clear the bit, and every other outcome of a command keeps it. -/
theorem errorBitsNeverBlockCommands : Obligations.ErrorBitsNeverBlockCommands := by
  intro i s e
  cases i with
  | init =>
    cases hj : s.core.JOB with
    | none => exact .inl (exec_init_raise_of_idle e hj)
    | some j => exact .inr (exec_init_raise_of_job e hj)
  | update => exact .inr (exec_update_raise e s)
  | final n => exact .inr (exec_final_raise n e s)
  | clrerr => exact .inl (congrArg Host.Outcome.next (s.clearErrors_raise e))

/-! ## Nothing stops the machine -/

theorem performInput_runs (i : Input) (s : State) : Runs (performInput i s) := by
  cases i with
  | line l =>
    obtain ⟨u, hu⟩ := access_runs l.access s
    exact ⟨_, performLine_eq hu⟩
  | reset hold => exact ⟨_, rfl⟩

theorem hostTurn_runs (s : State) : Runs (hostTurn s) := by
  unfold hostTurn
  split
  next => exact ⟨s, rfl⟩
  next i rest _ => exact performInput_runs i (s.takeInput rest)

/-- Settles O50: each of the three turns of `step` answers a next state, the host's because every command does. -/
theorem everyStepRuns : Obligations.EveryStepRuns := by
  intro s
  by_cases hold : s.resetHold = 0
  · cases due : s.engineDue with
    | true => exact ⟨s.complete, step_of_due hold due⟩
    | false =>
      rw [step_of_hostMoves ((hostMoves_iff s).2 ⟨hold, due⟩)]
      exact hostTurn_runs s
  · exact ⟨s.holdReset, if_pos hold⟩

end Sys2Proof.Machine

/-! SUPPORT. Reset and hazards (70_reset_and_hazards.md). R320, R321, R323: the reset event, the held reset, and what the host
finds afterwards. R340, R342: how long a command keeps the engine busy, and that an ended run has no job in flight. -/
namespace Sys2Proof.Machine

/-! ## The reset event -/

/-- On the host's turn a reset event at the head is taken off the list and applied. -/
theorem step_of_reset {s : State} {hold : Nat} {rest : List Input} (moves : s.hostMoves = true)
    (next : s.host.inputs = .reset hold :: rest) : step s = .next ((s.takeInput rest).applyReset hold) := by
  rw [step_of_hostMoves moves, hostTurn, next]; rfl

/-- A step with a job in flight keeps the job, completes it, or is the reset event: no command is accepted beside a job. -/
theorem step_of_job_cases {s t : State} {j : Job} (hj : s.core.JOB = some j) (h : step s = .next t) :
    t.core.JOB = some j ∨ t.core = s.core.complete j ∨ s.NextReset := by
  cases step_dataEffect h with
  | kept data => exact .inl (data.JOB.trans hj)
  | msgWrite _ _ _ _ _ _ _ _ _ _ _ core => exact .inl (core ▸ hj)
  | completed j' job _ _ core =>
    obtain rfl : j' = j := Option.some.inj (job.symm.trans hj)
    exact .inr (.inl core)
  | reset next _ => exact .inr (.inr next)
  | init _ idle _ => exact nomatch idle.symm.trans hj
  | update _ idle _ _ => exact nomatch idle.symm.trans hj
  | final _ _ idle _ _ => exact nomatch idle.symm.trans hj

/-- Settles O2. -/
theorem resetEventResetsAndAloneStopsJob : Obligations.ResetEventResetsAndAloneStopsJob :=
  ⟨fun _ _ _ moves next => ⟨_, step_of_reset moves next, rfl, rfl, rfl⟩, fun _ _ _ => step_of_job_cases⟩

/-- Settles O3. -/
theorem heldResetAcceptsNothing : Obligations.HeldResetAcceptsNothing := fun _ hold => if_pos hold

/-! ## The machine right after reset -/

/-- Every register reads 0 after reset (10_state.md R42 to R47): no digest is valid, and LEN, MSG and the flags are 0. -/
theorem CoreState.reset_readReg (r : Reg) : CoreState.reset.readReg r = 0 := by
  cases r with
  | msg j => exact Vector.getElem_replicate j.isLt
  | _ => rfl

/-- A FINAL accepted right after reset shows in STATUS as BUSY and FINALIZED (10_state.md R42). -/
theorem CoreState.reset_status_of_finalized_job (j : Job) :
    { CoreState.reset with FINALIZED := true, JOB := some j }.status = 5 := by
  simp [CoreState.status, CoreState.busy, CoreState.reset]

/-- Settles O4: after reset no job is in flight and the record is not finalized, so INIT, UPDATE and FINAL are accepted. -/
theorem readyAtOnceAfterReset : Obligations.ReadyAtOnceAfterReset := by
  refine ⟨rfl, fun off form => ?_, fun i _ => ?_⟩
  · have ownOffset : (Reg.ofOffset off).off = off := Reg.off_ofOffset off ((accessLegal_iff off 4).1 form).2
    rw [← ownOffset, access_read_off, State.reset, CoreState.reset_readReg]
  · cases i with
    | init => exact ⟨_, exec_init_of_idle rfl, rfl⟩
    | update => exact ⟨_, exec_update_of_open rfl rfl, rfl⟩
    | final n => exact ⟨_, exec_final_of_open n rfl rfl, CoreState.reset_status_of_finalized_job _⟩
    | clrerr => exact ⟨_, rfl, rfl⟩

/-! ## How long a command keeps the engine busy -/

/-- UPDATE compresses one block. -/
theorem updateJob_busyCycles (c : CoreState) : (updateJob c).busyCycles = busyCycles .update := Nat.one_mul Config.tBlock

/-- FINAL n compresses the blocks of the padded tail. -/
theorem finalJob_busyCycles (n : Nat) (c : CoreState) : (finalJob n c).busyCycles = busyCycles (.final n) := by
  rw [Job.busyCycles, finalJob, padtail_length, busyCycles]
  split
  · exact Nat.one_mul Config.tBlock
  · rfl

/-- Settles O60: an idle command either leaves the data of the record, or is INIT, UPDATE or FINAL with the job of its rule. -/
theorem busyCyclesOfCommands : Obligations.BusyCyclesOfCommands := by
  intro i s t _ idle h
  cases exec_effect h with
  | kept data =>
    have idle' : t.core.JOB = none := data.JOB.trans idle
    exact ⟨fun j hj => (nomatch idle'.symm.trans hj), fun _ => idle'⟩
  | init _ _ core =>
    have idle' : t.core.JOB = none := by rw [core]; exact idle
    exact ⟨fun j hj => (nomatch idle'.symm.trans hj), fun _ => idle'⟩
  | update command _ _ core =>
    subst command
    rw [core]
    exact ⟨fun j hj => Option.some.inj hj ▸ updateJob_busyCycles s.core, by simp⟩
  | final n command _ _ core =>
    subst command
    rw [core]
    exact ⟨fun j hj => Option.some.inj hj ▸ finalJob_busyCycles n s.core, by simp⟩

/-! ## The run's bookkeeping of a job in flight -/

@[simp] theorem noted_awaiting (a : Access) (r : Response) (before after : State) :
    (noted a r before after).host.awaiting = awaitingAfter a r before after := rfl

@[simp] theorem afterLine_awaiting (l : Line) (before s : State) :
    (afterLine l before s).host.awaiting = s.host.awaiting := by
  cases l with
  | poll r mask value => simp only [afterLine]; split <;> rfl
  | expect r imm => simp only [afterLine]; split <;> rfl
  | _ => rfl

theorem command_host {w : Word} {s t : State} (h : command w s = .next t) : t.host = s.host := by
  unfold command at h
  split at h
  next =>
    obtain rfl := Host.Outcome.next.inj h
    rfl
  next i _ =>
    obtain ⟨-, -, host, -⟩ := commandFrame i s t h
    exact host

/-- The effect of a transaction on the core leaves the host's side. -/
theorem access_host {a : Access} {s t : State} (h : (access a s).2 = .next t) : t.host = s.host := by
  rcases access_cases h with ⟨-, -, rfl⟩ | ⟨-, rfl | ⟨off, n, w, -, -, hcommand⟩ | ⟨off, n, v, j, -, -, rfl⟩⟩
  · rfl
  · rfl
  · exact command_host hcommand
  · rfl

/-- With a job in flight no read shows BUSY = 0: a STATUS read answers its bit 0 with BUSY. -/
theorem sawIdle_of_busy {s : State} (hb : s.core.busy = true) (a : Access) : sawIdle a (access a s).1 = false := by
  unfold sawIdle
  split
  next off v answer =>
    by_cases hoff : off = Reg.status.off
    · subst hoff
      rw [access_read_off] at answer
      obtain rfl := Response.data.inj answer
      have bit : s.core.status.getLsbD 0 = true := (s.core.status_getLsbD 0).trans hb
      simp [CoreState.readReg, bit]
    · simp [hoff]
  next => rfl

/-- The run awaits a job that a transaction leaves in flight: either the transaction set BUSY, or the run awaited the job
before and the transaction read no BUSY = 0. -/
theorem awaitingAfter_of_busy {a : Access} {s u : State} (awaited : s.core.busy = true → s.host.awaiting = true)
    (h : (access a s).2 = .next u) (hb : u.core.busy = true) : awaitingAfter a (access a s).1 s u = true := by
  cases before : s.core.busy with
  | false => simp [awaitingAfter, before, hb]
  | true => simp [awaitingAfter, before, sawIdle_of_busy before, access_host h, awaited before]

/-- A job in flight is awaited after a step if one was before: the engine's turn and reset leave no job, a line keeps the
bookkeeping (`awaitingAfter_of_busy`), and any other step changes neither the job nor the host's bit. -/
theorem step_busy_awaiting {s t : State} (awaited : s.core.busy = true → s.host.awaiting = true)
    (h : step s = .next t) (hb : t.core.busy = true) : t.host.awaiting = true := by
  rcases step_cases h with ⟨-, rfl⟩ | ⟨-, due, rfl⟩ | ⟨-, -, rfl⟩ | ⟨-, l, rest, -, hl⟩ | ⟨-, hold, rest, -, rfl⟩
  · exact awaited hb
  · rw [State.complete_host]
    exact awaited (Bool.and_eq_true_iff.1 due).1
  · exact awaited hb
  · obtain ⟨u, hu⟩ := access_runs l.access (s.takeInput rest)
    obtain rfl := Host.Outcome.next.inj ((performLine_eq hu).symm.trans hl)
    rw [afterLine_core, noted_core] at hb
    rw [afterLine_awaiting, noted_awaiting]
    exact awaitingAfter_of_busy awaited hu hb
  · exact nomatch hb

/-- Settles O49: every step keeps a busy engine awaited (`step_busy_awaiting`), and an ended run awaits nothing. -/
theorem endedRunIsIdle : Obligations.EndedRunIsIdle := by
  refine ⟨fun _ _ => step_busy_awaiting, fun s awaited ended => ?_⟩
  obtain ⟨noInput, notAwaiting⟩ : s.host.inputs = [] ∧ s.host.awaiting = false := by
    simpa [State.runEnded] using ended
  refine ⟨noInput, (busy_false_iff s.core).1 (Bool.eq_false_iff.2 fun hb => ?_)⟩
  exact absurd (awaited hb) (ne_true_of_eq_false notAwaiting)

end Sys2Proof.Machine
